-- ==== Sys2Proof/Word.lean ====
section
/-! DEFINITION. The value types of the crisp8 core: bytes, 16-bit words, nibbles and register numbers.
Every value of the spec is unsigned (00_scope.md R9). -/

namespace Sys2Proof

/-- An 8-bit value: a memory byte, a V register, a timer (10_state.md R20, R28, R32). -/
abbrev Byte := BitVec 8

/-- A 16-bit value: `pc`, `I`, a return address, an instruction word (R23, R25, R26, R70). -/
abbrev Word := BitVec 16

/-- A 4-bit value: one nibble of an instruction word, a sprite height, a key (R71, R73, R192). -/
abbrev Nibble := BitVec 4

/-- A 12-bit address field `nnn` (R73). -/
abbrev Addr := BitVec 12

/-- A register number 0 to 15, selecting `V[0]` to `V[15]` (R20). -/
abbrev Reg := Fin 16

/-- `FLAG_REG`, the register `VF` (R7, R21). -/
abbrev VF : Reg := 15

end Sys2Proof
end

