-- ==== Sys2Proof/Syntax.lean ====
section
/-! DEFINITION. The instruction set: one constructor for each of the 34 rows of spec/opcode_table.json
(00_scope.md R3, 30_encoding.md R74), in the table's order, with the operands of R73. -/

namespace Sys2Proof

/-- An instruction of the base variant. `x` and `y` are register numbers, `nn` a byte, `nnn` a 12-bit address and `z` a
sprite height (R73). -/
inductive Instr where
  /-- `00E0` CLS (R170) -/
  | cls
  /-- `00EE` RET (R120) -/
  | ret
  /-- `1nnn` JP addr (R121) -/
  | jpAddr (nnn : Addr)
  /-- `2nnn` CALL addr (R122) -/
  | callAddr (nnn : Addr)
  /-- `3xnn` SE Vx, byte (R123) -/
  | seVxByte (x : Reg) (nn : Byte)
  /-- `4xnn` SNE Vx, byte (R124) -/
  | sneVxByte (x : Reg) (nn : Byte)
  /-- `5xy0` SE Vx, Vy (R125) -/
  | seVxVy (x y : Reg)
  /-- `6xnn` LD Vx, byte (R140) -/
  | ldVxByte (x : Reg) (nn : Byte)
  /-- `7xnn` ADD Vx, byte (R141) -/
  | addVxByte (x : Reg) (nn : Byte)
  /-- `8xy0` LD Vx, Vy (R142) -/
  | ldVxVy (x y : Reg)
  /-- `8xy1` OR Vx, Vy (R143) -/
  | orVxVy (x y : Reg)
  /-- `8xy2` AND Vx, Vy (R144) -/
  | andVxVy (x y : Reg)
  /-- `8xy3` XOR Vx, Vy (R145) -/
  | xorVxVy (x y : Reg)
  /-- `8xy4` ADD Vx, Vy (R146) -/
  | addVxVy (x y : Reg)
  /-- `8xy5` SUB Vx, Vy (R147) -/
  | subVxVy (x y : Reg)
  /-- `8xy6` SHR Vx, Vy (R148) -/
  | shrVxVy (x y : Reg)
  /-- `8xy7` SUBN Vx, Vy (R149) -/
  | subnVxVy (x y : Reg)
  /-- `8xyE` SHL Vx, Vy (R150) -/
  | shlVxVy (x y : Reg)
  /-- `9xy0` SNE Vx, Vy (R126) -/
  | sneVxVy (x y : Reg)
  /-- `Annn` LD I, addr (R151) -/
  | ldIAddr (nnn : Addr)
  /-- `Bnnn` JP V0, addr (R127) -/
  | jpV0Addr (nnn : Addr)
  /-- `Cxnn` RND Vx, byte (R152) -/
  | rndVxByte (x : Reg) (nn : Byte)
  /-- `Dxyz` DRW Vx, Vy, nibble (R171) -/
  | drwVxVyNibble (x y : Reg) (z : Nibble)
  /-- `Ex9E` SKP Vx (R200) -/
  | skpVx (x : Reg)
  /-- `ExA1` SKNP Vx (R201) -/
  | sknpVx (x : Reg)
  /-- `Fx07` LD Vx, DT (R190) -/
  | ldVxDT (x : Reg)
  /-- `Fx0A` LD Vx, K (R191) -/
  | ldVxK (x : Reg)
  /-- `Fx15` LD DT, Vx (R194) -/
  | ldDTVx (x : Reg)
  /-- `Fx18` LD ST, Vx (R195) -/
  | ldSTVx (x : Reg)
  /-- `Fx1E` ADD I, Vx (R153) -/
  | addIVx (x : Reg)
  /-- `Fx29` LD F, Vx (R196) -/
  | ldFVx (x : Reg)
  /-- `Fx33` LD B, Vx (R197) -/
  | ldBVx (x : Reg)
  /-- `Fx55` LD [I], Vx (R198) -/
  | ldMemIVx (x : Reg)
  /-- `Fx65` LD Vx, [I] (R199) -/
  | ldVxMemI (x : Reg)
deriving DecidableEq, Repr

/-- An operand as an assembler or a loader would hand it over: a number for a field of `width` bits (R71, R73). -/
structure Operand where
  width : Nat
  value : Nat
deriving DecidableEq, Repr

namespace Operand

/-- A register field `x` or `y`. -/
def reg (n : Nat) : Operand := ⟨4, n⟩
/-- The field `nn`. -/
def byte (n : Nat) : Operand := ⟨8, n⟩
/-- The field `nnn`. -/
def addr (n : Nat) : Operand := ⟨12, n⟩
/-- The field `z` of `Dxyz`. -/
def nibble (n : Nat) : Operand := ⟨4, n⟩

end Operand

/-- The operands of an instruction, in the order of its fields from the most significant bit down (R70, R73). -/
def Instr.operands : Instr → List Operand
  | .cls => []
  | .ret => []
  | .jpAddr nnn => [.addr nnn.toNat]
  | .callAddr nnn => [.addr nnn.toNat]
  | .seVxByte x nn => [.reg x, .byte nn.toNat]
  | .sneVxByte x nn => [.reg x, .byte nn.toNat]
  | .seVxVy x y => [.reg x, .reg y]
  | .ldVxByte x nn => [.reg x, .byte nn.toNat]
  | .addVxByte x nn => [.reg x, .byte nn.toNat]
  | .ldVxVy x y => [.reg x, .reg y]
  | .orVxVy x y => [.reg x, .reg y]
  | .andVxVy x y => [.reg x, .reg y]
  | .xorVxVy x y => [.reg x, .reg y]
  | .addVxVy x y => [.reg x, .reg y]
  | .subVxVy x y => [.reg x, .reg y]
  | .shrVxVy x y => [.reg x, .reg y]
  | .subnVxVy x y => [.reg x, .reg y]
  | .shlVxVy x y => [.reg x, .reg y]
  | .sneVxVy x y => [.reg x, .reg y]
  | .ldIAddr nnn => [.addr nnn.toNat]
  | .jpV0Addr nnn => [.addr nnn.toNat]
  | .rndVxByte x nn => [.reg x, .byte nn.toNat]
  | .drwVxVyNibble x y z => [.reg x, .reg y, .nibble z.toNat]
  | .skpVx x => [.reg x]
  | .sknpVx x => [.reg x]
  | .ldVxDT x => [.reg x]
  | .ldVxK x => [.reg x]
  | .ldDTVx x => [.reg x]
  | .ldSTVx x => [.reg x]
  | .addIVx x => [.reg x]
  | .ldFVx x => [.reg x]
  | .ldBVx x => [.reg x]
  | .ldMemIVx x => [.reg x]
  | .ldVxMemI x => [.reg x]

end Sys2Proof
end

