-- ==== Sys2Proof/Decode.lean ====
section
/-! DEFINITION. The decoder of 30_encoding.md R70 to R80, then the encoder, written from the same encodings. -/

namespace Sys2Proof

/-- A register number from its 4-bit field (R73). -/
def regOfNibble (n : Nibble) : Reg := n.toFin

/-- The 4-bit field of a register number. -/
def nibbleOfReg (r : Reg) : Nibble := BitVec.ofFin r

/-- The word of the two fetched bytes, the first one above: `word = hi : lo` (R71; 20_memory.md R56). -/
def wordOfBytes (hi lo : Byte) : Word := hi ++ lo

/-- `w = word[15:12]` (R71). -/
def fieldW (word : Word) : Nibble := word.extractLsb' 12 4
/-- `x = word[11:8]` (R71). -/
def fieldX (word : Word) : Nibble := word.extractLsb' 8 4
/-- `y = word[7:4]` (R71). -/
def fieldY (word : Word) : Nibble := word.extractLsb' 4 4
/-- `z = word[3:0]` (R71). -/
def fieldZ (word : Word) : Nibble := word.extractLsb' 0 4
/-- `nn = word[7:0]` (R71). -/
def fieldNN (word : Word) : Byte := word.extractLsb' 0 8
/-- `nnn = word[11:0]` (R71). -/
def fieldNNN (word : Word) : Addr := word.extractLsb' 0 12

/-- Why a word is Unknown: the group of R80 whose sub-key it misses. -/
inductive Unknown where
  /-- `0nnn` other than `00E0` and `00EE` (R75) -/
  | group0
  /-- `5xyz` with `z` not 0 (R76) -/
  | group5
  /-- `8xyz` with `z` in 8 to D or F (R77) -/
  | group8
  /-- `9xyz` with `z` not 0 (R76) -/
  | group9
  /-- `Exnn` with `nn` neither `9E` nor `A1` (R78) -/
  | groupE
  /-- `Fxnn` with `nn` none of the nine of R79 -/
  | groupF
deriving DecidableEq, Repr

/-- `Decode(hi, lo) -> Instr | Unknown` (R72). -/
inductive Decoded where
  | instr (i : Instr)
  | unknown (why : Unknown)
deriving DecidableEq, Repr

/-- Group `w = 0x0`: the whole word selects (R75). -/
def decodeGroup0 (word : Word) : Decoded :=
  if word = 0x00E0#16 then .instr .cls
  else if word = 0x00EE#16 then .instr .ret
  else .unknown .group0

/-- Group `w = 0x8`: `z` selects (R77). -/
def decodeGroup8 (x y : Reg) (z : Nibble) : Decoded :=
  if z = 0x0#4 then .instr (.ldVxVy x y)
  else if z = 0x1#4 then .instr (.orVxVy x y)
  else if z = 0x2#4 then .instr (.andVxVy x y)
  else if z = 0x3#4 then .instr (.xorVxVy x y)
  else if z = 0x4#4 then .instr (.addVxVy x y)
  else if z = 0x5#4 then .instr (.subVxVy x y)
  else if z = 0x6#4 then .instr (.shrVxVy x y)
  else if z = 0x7#4 then .instr (.subnVxVy x y)
  else if z = 0xE#4 then .instr (.shlVxVy x y)
  else .unknown .group8

/-- Group `w = 0xE`: `nn` selects (R78). -/
def decodeGroupE (x : Reg) (nn : Byte) : Decoded :=
  if nn = 0x9E#8 then .instr (.skpVx x)
  else if nn = 0xA1#8 then .instr (.sknpVx x)
  else .unknown .groupE

/-- Group `w = 0xF`: `nn` selects (R79). -/
def decodeGroupF (x : Reg) (nn : Byte) : Decoded :=
  if nn = 0x07#8 then .instr (.ldVxDT x)
  else if nn = 0x0A#8 then .instr (.ldVxK x)
  else if nn = 0x15#8 then .instr (.ldDTVx x)
  else if nn = 0x18#8 then .instr (.ldSTVx x)
  else if nn = 0x1E#8 then .instr (.addIVx x)
  else if nn = 0x29#8 then .instr (.ldFVx x)
  else if nn = 0x33#8 then .instr (.ldBVx x)
  else if nn = 0x55#8 then .instr (.ldMemIVx x)
  else if nn = 0x65#8 then .instr (.ldVxMemI x)
  else .unknown .groupF

/-- The decoder on one word, dispatching on `w` (R74 to R79). -/
def decodeWord (word : Word) : Decoded :=
  let w := fieldW word
  let x := regOfNibble (fieldX word)
  let y := regOfNibble (fieldY word)
  let z := fieldZ word
  let nn := fieldNN word
  let nnn := fieldNNN word
  if w = 0x0#4 then decodeGroup0 word
  else if w = 0x1#4 then .instr (.jpAddr nnn)
  else if w = 0x2#4 then .instr (.callAddr nnn)
  else if w = 0x3#4 then .instr (.seVxByte x nn)
  else if w = 0x4#4 then .instr (.sneVxByte x nn)
  else if w = 0x5#4 then (if z = 0x0#4 then .instr (.seVxVy x y) else .unknown .group5)
  else if w = 0x6#4 then .instr (.ldVxByte x nn)
  else if w = 0x7#4 then .instr (.addVxByte x nn)
  else if w = 0x8#4 then decodeGroup8 x y z
  else if w = 0x9#4 then (if z = 0x0#4 then .instr (.sneVxVy x y) else .unknown .group9)
  else if w = 0xA#4 then .instr (.ldIAddr nnn)
  else if w = 0xB#4 then .instr (.jpV0Addr nnn)
  else if w = 0xC#4 then .instr (.rndVxByte x nn)
  else if w = 0xD#4 then .instr (.drwVxVyNibble x y z)
  else if w = 0xE#4 then decodeGroupE x nn
  else decodeGroupF x nn

/-- `Decode(hi, lo)`: a pure function of the two bytes (R72). -/
def decode (hi lo : Byte) : Decoded := decodeWord (wordOfBytes hi lo)

/-- Where the row of spec/opcode_table.json lays down fixed bits: its mask and its match. -/
structure Row where
  mask : Word
  pattern : Word
deriving DecidableEq, Repr

/-- The row's test of a word. -/
def Row.selects (r : Row) (word : Word) : Bool := decide (word &&& r.mask = r.pattern)

/-- The mask and match of an instruction's row of spec/opcode_table.json. -/
def Instr.row : Instr → Row
  | .cls => ⟨0xFFFF#16, 0x00E0#16⟩
  | .ret => ⟨0xFFFF#16, 0x00EE#16⟩
  | .jpAddr _ => ⟨0xF000#16, 0x1000#16⟩
  | .callAddr _ => ⟨0xF000#16, 0x2000#16⟩
  | .seVxByte _ _ => ⟨0xF000#16, 0x3000#16⟩
  | .sneVxByte _ _ => ⟨0xF000#16, 0x4000#16⟩
  | .seVxVy _ _ => ⟨0xF00F#16, 0x5000#16⟩
  | .ldVxByte _ _ => ⟨0xF000#16, 0x6000#16⟩
  | .addVxByte _ _ => ⟨0xF000#16, 0x7000#16⟩
  | .ldVxVy _ _ => ⟨0xF00F#16, 0x8000#16⟩
  | .orVxVy _ _ => ⟨0xF00F#16, 0x8001#16⟩
  | .andVxVy _ _ => ⟨0xF00F#16, 0x8002#16⟩
  | .xorVxVy _ _ => ⟨0xF00F#16, 0x8003#16⟩
  | .addVxVy _ _ => ⟨0xF00F#16, 0x8004#16⟩
  | .subVxVy _ _ => ⟨0xF00F#16, 0x8005#16⟩
  | .shrVxVy _ _ => ⟨0xF00F#16, 0x8006#16⟩
  | .subnVxVy _ _ => ⟨0xF00F#16, 0x8007#16⟩
  | .shlVxVy _ _ => ⟨0xF00F#16, 0x800E#16⟩
  | .sneVxVy _ _ => ⟨0xF00F#16, 0x9000#16⟩
  | .ldIAddr _ => ⟨0xF000#16, 0xA000#16⟩
  | .jpV0Addr _ => ⟨0xF000#16, 0xB000#16⟩
  | .rndVxByte _ _ => ⟨0xF000#16, 0xC000#16⟩
  | .drwVxVyNibble _ _ _ => ⟨0xF000#16, 0xD000#16⟩
  | .skpVx _ => ⟨0xF0FF#16, 0xE09E#16⟩
  | .sknpVx _ => ⟨0xF0FF#16, 0xE0A1#16⟩
  | .ldVxDT _ => ⟨0xF0FF#16, 0xF007#16⟩
  | .ldVxK _ => ⟨0xF0FF#16, 0xF00A#16⟩
  | .ldDTVx _ => ⟨0xF0FF#16, 0xF015#16⟩
  | .ldSTVx _ => ⟨0xF0FF#16, 0xF018#16⟩
  | .addIVx _ => ⟨0xF0FF#16, 0xF01E#16⟩
  | .ldFVx _ => ⟨0xF0FF#16, 0xF029#16⟩
  | .ldBVx _ => ⟨0xF0FF#16, 0xF033#16⟩
  | .ldMemIVx _ => ⟨0xF0FF#16, 0xF055#16⟩
  | .ldVxMemI _ => ⟨0xF0FF#16, 0xF065#16⟩

/-- One instruction for each row, its operands zero: the 34 rows of the opcode table, in its order. -/
def tableInstrs : List Instr :=
  [.cls, .ret, .jpAddr 0, .callAddr 0, .seVxByte 0 0, .sneVxByte 0 0, .seVxVy 0 0, .ldVxByte 0 0, .addVxByte 0 0] ++
  [.ldVxVy 0 0, .orVxVy 0 0, .andVxVy 0 0, .xorVxVy 0 0, .addVxVy 0 0, .subVxVy 0 0, .shrVxVy 0 0, .subnVxVy 0 0] ++
  [.shlVxVy 0 0, .sneVxVy 0 0, .ldIAddr 0, .jpV0Addr 0, .rndVxByte 0 0, .drwVxVyNibble 0 0 0, .skpVx 0, .sknpVx 0] ++
  [.ldVxDT 0, .ldVxK 0, .ldDTVx 0, .ldSTVx 0, .addIVx 0, .ldFVx 0, .ldBVx 0, .ldMemIVx 0, .ldVxMemI 0]

/-- The rows of the opcode table. -/
def opcodeTable : List Row := tableInstrs.map Instr.row

/-- A word `w` with a 12-bit field. -/
def wordOfNNN (w : Nibble) (nnn : Addr) : Word := w ++ nnn
/-- A word `w x` with an 8-bit field. -/
def wordOfXNN (w : Nibble) (x : Reg) (nn : Byte) : Word := (w ++ nibbleOfReg x) ++ nn
/-- A word of four nibbles `w x y z`. -/
def wordOfXYZ (w : Nibble) (x y : Reg) (z : Nibble) : Word := ((w ++ nibbleOfReg x) ++ nibbleOfReg y) ++ z

/-- The word of an instruction (R70, R74 to R79). -/
def encode : Instr → Word
  | .cls => 0x00E0#16
  | .ret => 0x00EE#16
  | .jpAddr nnn => wordOfNNN 0x1#4 nnn
  | .callAddr nnn => wordOfNNN 0x2#4 nnn
  | .seVxByte x nn => wordOfXNN 0x3#4 x nn
  | .sneVxByte x nn => wordOfXNN 0x4#4 x nn
  | .seVxVy x y => wordOfXYZ 0x5#4 x y 0x0#4
  | .ldVxByte x nn => wordOfXNN 0x6#4 x nn
  | .addVxByte x nn => wordOfXNN 0x7#4 x nn
  | .ldVxVy x y => wordOfXYZ 0x8#4 x y 0x0#4
  | .orVxVy x y => wordOfXYZ 0x8#4 x y 0x1#4
  | .andVxVy x y => wordOfXYZ 0x8#4 x y 0x2#4
  | .xorVxVy x y => wordOfXYZ 0x8#4 x y 0x3#4
  | .addVxVy x y => wordOfXYZ 0x8#4 x y 0x4#4
  | .subVxVy x y => wordOfXYZ 0x8#4 x y 0x5#4
  | .shrVxVy x y => wordOfXYZ 0x8#4 x y 0x6#4
  | .subnVxVy x y => wordOfXYZ 0x8#4 x y 0x7#4
  | .shlVxVy x y => wordOfXYZ 0x8#4 x y 0xE#4
  | .sneVxVy x y => wordOfXYZ 0x9#4 x y 0x0#4
  | .ldIAddr nnn => wordOfNNN 0xA#4 nnn
  | .jpV0Addr nnn => wordOfNNN 0xB#4 nnn
  | .rndVxByte x nn => wordOfXNN 0xC#4 x nn
  | .drwVxVyNibble x y z => wordOfXYZ 0xD#4 x y z
  | .skpVx x => wordOfXNN 0xE#4 x 0x9E#8
  | .sknpVx x => wordOfXNN 0xE#4 x 0xA1#8
  | .ldVxDT x => wordOfXNN 0xF#4 x 0x07#8
  | .ldVxK x => wordOfXNN 0xF#4 x 0x0A#8
  | .ldDTVx x => wordOfXNN 0xF#4 x 0x15#8
  | .ldSTVx x => wordOfXNN 0xF#4 x 0x18#8
  | .addIVx x => wordOfXNN 0xF#4 x 0x1E#8
  | .ldFVx x => wordOfXNN 0xF#4 x 0x29#8
  | .ldBVx x => wordOfXNN 0xF#4 x 0x33#8
  | .ldMemIVx x => wordOfXNN 0xF#4 x 0x55#8
  | .ldVxMemI x => wordOfXNN 0xF#4 x 0x65#8

/-- The high byte of a word, the one at the lower address (R56). -/
def hiByte (word : Word) : Byte := word.extractLsb' 8 8
/-- The low byte of a word, the one at the higher address (R56). -/
def loByte (word : Word) : Byte := word.extractLsb' 0 8

/-- The word of an opcode-table row whose `nbits` bits are `w`; the bits above `nbits` are 0. -/
def tableWord (nbits w : Nat) : Word := BitVec.ofNat 16 (w % 2 ^ nbits)

/-- The instruction the decoder reads from a row's word, laid out big-endian as the fetch reads it (R56). -/
def decodeTableWord (nbits w : Nat) : Option Instr :=
  match decode (hiByte (tableWord nbits w)) (loByte (tableWord nbits w)) with
  | .instr i => some i
  | .unknown _ => none

end Sys2Proof
end

