-- ==== Sys2Proof/Config.lean ====
section
/-! DEFINITION. The implementation parameters of 00_scope.md R7, the parameters the spec leaves OPEN, and the free
values of a step's inputs. -/

namespace Sys2Proof

/-- The register the two shifts read (R148, R150; 92_eei_decisions.md D6): the parameter `SHIFT_SOURCE`. -/
inductive ShiftSource where
  | x
  | y
deriving DecidableEq, Repr

/-- `FONT_BASE`: any address with `FONT_BASE + 16 * FONT_STRIDE <= 0x200`, so 0 to 432 (R7, R55; D13). -/
abbrev FontBase := Fin 433

/-- The two parameters a core is built with and that no transition changes (R7). -/
structure Params where
  fontBase : FontBase
  shiftSource : ShiftSource
deriving DecidableEq, Repr

namespace Config

/-- `MEM_SIZE` (R7, R50). -/
@[simp] abbrev memSize : Nat := 4096

/-- `PROG_BASE`: the reset value of `pc` and the address of the loaded image (R7, R36, R53). -/
@[simp] abbrev progBase : Nat := 0x200

/-- `STACK_DEPTH` (R7, R26). -/
@[simp] abbrev stackDepth : Nat := 16

/-- `FONT_STRIDE`, the bytes of one glyph (R7, R55; D13: the spec's own choice). -/
@[simp] abbrev fontStride : Nat := 5

/-- The number of bytes of `FONT_DATA`, `16 * FONT_STRIDE` (R55). -/
@[simp] abbrev fontBytes : Nat := 80

/-- `FONT_BASE` of the core that `State.reset` describes: OPEN, so a value nothing is known of (D13; log entry 2). -/
opaque fontBase : FontBase

/-- The `rnd` input of the n-th step whose inputs the schedule does not give: a draw (R101, R152, D24; log entry 3). -/
opaque rndDraw : Nat → Byte

/-- The 16 `held` inputs of that step (R101; log entry 3). -/
opaque heldDraw : Nat → BitVec 16

/-- The `held_oor` input of that step: a draw (R101, R202, D17; log entry 3). -/
opaque heldOorDraw : Nat → Bool

end Config

end Sys2Proof
end

