-- ==== Sys2Proof/Machine/State.lean ====
section
/-! DEFINITION. The state of the crisp8 core (10_state.md), the reasons for a fault (60_exceptions.md R220, R221), the
host's transitions (40_step_cycle.md R100) and the state after reset (70_reset_and_hazards.md R260). -/

namespace Sys2Proof.Machine

/-- The five faults of R220. `step` TAKES a fault, as R109 and R225 describe it: it answers a next state whose `status`
is `faulted`, so `Host.Outcome.fault` itself is answered by no step. Nothing is lost by that: safe (log entry 5). -/
inductive Fault where
  /-- code 1: raised by the fetch of any step, `pc + 1 >= MEM_SIZE` (R105). Safe: the spec's own fault. -/
  | fetchOutOfBounds
  /-- code 2: raised by `00EE` with an empty stack (R120). Safe: the spec's own fault. -/
  | stackUnderflow
  /-- code 3: raised by `2nnn` with 16 entries on the stack (R122). Safe: the spec's own fault. -/
  | stackOverflow
  /-- code 4: raised by the decode of any step on an Unknown word (R80, R106). Safe: the spec's own fault. -/
  | unknownOpcode
  /-- code 5: raised by `Dxyz`, `Fx33`, `Fx55`, `Fx65` on a range past the end of memory (R51, D9). Safe. -/
  | memoryOutOfBounds
deriving DecidableEq, Repr

/-- No instruction is refused: every row of the opcode table has its meaning. -/
inductive Refusal where
  /-- an instruction that has no meaning yet, by its mnemonic; raised by no arm. Safe. -/
  | notModelled (mnemonic : String)
deriving DecidableEq, Repr

/-- The data access a `memoryOutOfBounds` refused: base address and byte count (R221). -/
structure Access where
  addr : Word
  len : Nat
deriving DecidableEq, Repr

/-- The fault record `rec = (code, pc, word, addr, len)` of R221: `word` is absent for `fetchOutOfBounds`, and the
access is present only for `memoryOutOfBounds`. -/
structure FaultRecord where
  kind : Fault
  pc : Word
  word : Option Word
  access : Option Access
deriving DecidableEq, Repr

/-- The engine status of R30. -/
inductive Status where
  | running
  | awaitingKey (r : Reg)
  | faulted (record : FaultRecord)
deriving DecidableEq, Repr

/-- The variant tag, with its one value (R31, R83). -/
inductive Variant where
  | base
deriving DecidableEq, Repr

/-- The inputs of one `Step` (R101): the random byte, the 16 held-key answers, and the answer for a key above 0xF. -/
structure Inputs where
  rnd : Byte
  held : BitVec 16
  heldOor : Bool
deriving DecidableEq, Repr

/-- A transition the driver or the keypad invokes on a built core (R100, R114). -/
inductive Transition where
  | step (inputs : Inputs)
  | tick
  | keyDown (k : Nibble)
  | keyUp (k : Nibble)
deriving DecidableEq, Repr

/-- The 64 x 32 grid, indexed row first (R29). -/
abbrev Display := Vector (Vector Bool 64) 32

/-- Memory as the listed bytes: addresses rising, no entry equal to what an unlisted address reads as (log entry 6). -/
abbrev Memory := List Host.Cell

/-- The machine. The first ten fields are the spec's state (10_state.md). `params` are the parameters of R7, which no
transition changes (log entry 2). `inputs`, `schedule` and `draws` are the MODEL's own: the inputs the current step
reads, the transitions the host invokes next, first one first, and how many steps took free inputs (log entries 3, 4). -/
structure State where
  /-- `V[0]` to `V[15]` (R20) -/
  V : Vector Byte 16
  /-- the program counter (R23) -/
  pc : Word
  /-- the index register (R25) -/
  I : Word
  /-- the delay timer (R28) -/
  DT : Byte
  /-- the sound timer (R28) -/
  ST : Byte
  /-- the return addresses, the last one on top; `depth` is its length (R26) -/
  stack : List Word
  /-- the display buffer (R29) -/
  display : Display
  /-- the engine status, the fault record in it (R30) -/
  status : Status
  /-- the variant tag (R31) -/
  variant : Variant
  /-- the 4096 bytes of memory (R32, R50) -/
  mem : Memory
  /-- `FONT_BASE` and `SHIFT_SOURCE` (R7) -/
  params : Params
  /-- the inputs presented to the current step (R101) -/
  inputs : Inputs
  /-- the transitions the host invokes next (R114) -/
  schedule : List Transition
  /-- how many steps took free inputs -/
  draws : Nat
deriving DecidableEq, Repr

/-- The state right after reset: `Construct` with an empty image and zero `FONT_DATA` (R35 to R40, R260, R261). The
`inputs` here are read by no step, which presents its own (log entry 3). -/
def State.reset : State where
  V := Vector.replicate 16 0#8
  pc := 0x200#16
  I := 0#16
  DT := 0#8
  ST := 0#8
  stack := []
  display := Vector.replicate 32 (Vector.replicate 64 false)
  status := .running
  variant := .base
  mem := []
  params := ⟨Config.fontBase, .x⟩
  inputs := ⟨0#8, 0#16, false⟩
  schedule := []
  draws := 0

end Sys2Proof.Machine
end

