-- ==== Sys2Proof/Machine/Ops.lean ====
section
/-! DEFINITION. The operations the meanings share: memory and register access, the stack, the central advance of the
program counter, taking a fault, the fetch, and the host's transitions. -/

namespace Sys2Proof.Machine

/-! ## Memory -/

/-- What a byte that nothing has written reads as: 0 (70_reset_and_hazards.md R261). -/
@[simp] abbrev unlisted : Byte := 0#8

/-- The byte at an address (20_memory.md R50). -/
def Memory.read : Memory → Nat → Byte
  | [], _ => unlisted
  | (k, b) :: m, a => if k = a then b else Memory.read m a

/-- Put a byte in front of cells at higher addresses, unless it is what an unlisted address reads as. -/
def Memory.put (a : Nat) (v : Byte) (m : Memory) : Memory := if v = unlisted then m else (a, v) :: m

/-- Write one byte, keeping the canonical form (R51, R63). -/
def Memory.write : Memory → Nat → Byte → Memory
  | [], a, v => Memory.put a v []
  | (k, b) :: m, a, v =>
    if a < k then Memory.put a v ((k, b) :: m)
    else if a = k then Memory.put a v m
    else (k, b) :: Memory.write m a v

/-- Write bytes at ascending addresses (R57). -/
def Memory.writeBytes : Memory → Nat → List Byte → Memory
  | m, _, [] => m
  | m, a, b :: bs => Memory.writeBytes (m.write a b) (a + 1) bs

/-- The `n` bytes from an address on, ascending (R57). -/
def Memory.readBytes (m : Memory) (a n : Nat) : List Byte := (List.range n).map fun k => m.read (a + k)

/-- The canonical form: addresses strictly rising and below `MEM_SIZE`, no entry equal to an unlisted byte. -/
def Memory.wf : Memory → Bool
  | [] => true
  | (k, b) :: m => decide (k < Config.memSize) && decide (b ≠ unlisted) && m.all (fun c => decide (k < c.1)) && Memory.wf m

/-- The access of `len` bytes from `base` on reaches past the end of memory. The addresses are natural numbers and do
not wrap (R51, R52); an access of no byte reaches nothing (43_display.md R171). -/
def outOfRange (base : Word) (len : Nat) : Bool := decide (0 < len ∧ Config.memSize ≤ base.toNat + len - 1)

/-! ## Registers -/

/-- Read `V[r]` (R10, R20). -/
def State.reg (s : State) (r : Reg) : Byte := s.V[r]

/-- Write `V[r]`: no register is hard-wired (R20). -/
def State.setReg (s : State) (r : Reg) (v : Byte) : State := { s with V := s.V.set r v }

/-- Write a result to `V[x]`, then the flag to `VF`: the flag is the last write (R21, R110). -/
def State.setRegFlag (s : State) (x : Reg) (v : Byte) (flag : Bool) : State :=
  (s.setReg x v).setReg VF (if flag then 1#8 else 0#8)

/-- The registers with `V[0]` to `V[x]` loaded from memory (R199). No address depends on a register, so the order of
the loads does not show. -/
def State.loadRegs (s : State) (x : Reg) : State :=
  { s with V := s.V.mapIdx fun r old => if r ≤ x.val then s.mem.read (s.I.toNat + r) else old }

/-- The values of `V[0]` to `V[x]`, ascending (R198). -/
def State.regsUpTo (s : State) (x : Reg) : List Byte := s.V.toList.take (x + 1)

/-! ## The stack -/

/-- `Push(v)`, none where it raises StackOverflow (R27). -/
def State.push (s : State) (v : Word) : Option State :=
  if s.stack.length < Config.stackDepth then some { s with stack := s.stack ++ [v] } else none

/-- `Pop()`, none where it raises StackUnderflow (R27). -/
def State.pop (s : State) : Option (Word × State) :=
  match s.stack.getLast? with
  | some v => some (v, { s with stack := s.stack.dropLast })
  | none => none

/-! ## The end of an instruction -/

/-- The advance outcome of an instruction body (40_step_cycle.md R107). -/
inductive Advance where
  | seq
  | skip
  | jump (target : Word)
  | wait (r : Reg)
  | fault (kind : Fault) (access : Option Access)
deriving DecidableEq, Repr

/-- Taking a fault, `Commit(S, kind, info)`: the status alone changes, `pc` keeps the faulting address, nothing is
saved elsewhere and no handler is entered (R109, R225). There is no return from a fault (R226). -/
def State.commit (s : State) (kind : Fault) (word : Option Word) (access : Option Access) : State :=
  { s with status := .faulted ⟨kind, s.pc, word, access⟩ }

/-- The central advance (R102, R108, R109): `s` is the state before the instruction `i`, `s1` the state its body left.
A fault discards `s1`. -/
def advanced (i : Instr) (s s1 : State) : Advance → State
  | .seq => { s1 with pc := s.pc + 2#16 }
  | .skip => { s1 with pc := s.pc + 4#16 }
  | .jump t => { s1 with pc := t }
  | .wait r => { s1 with pc := s.pc, status := .awaitingKey r }
  | .fault kind access => s.commit kind (some (encode i)) access

/-- The end of an instruction: a next state, whatever its outcome (R102). -/
def complete (i : Instr) (s s1 : State) (out : Advance) : Host.Outcome State Fault Refusal := .next (advanced i s s1 out)

/-- `Skip` if the condition holds, else `Seq` (R107, 41_control_flow.md R128). -/
def skipIf (c : Bool) : Advance := if c then .skip else .seq

/-- The body of an instruction that runs on if its data range lies in memory, and faults before any effect if not
(R51, R109). -/
def guarded (i : Instr) (s : State) (len : Nat) (s1 : State) : Host.Outcome State Fault Refusal :=
  if outOfRange s.I len then complete i s s (.fault .memoryOutOfBounds (some ⟨s.I, len⟩))
  else complete i s s1 .seq

/-! ## The display -/

/-- The pixel at a row and a column, off outside the grid (10_state.md R29). -/
def Display.pixel (d : Display) (row col : Nat) : Bool :=
  if h : row < 32 ∧ col < 64 then (d[row]'h.1)[col]'h.2 else false

/-- Every pixel of the grid set to off (43_display.md R170). `mapIdx` and not `map`: the kernel can evaluate it. -/
def Display.clear (d : Display) : Display := d.mapIdx fun _ cells => cells.mapIdx fun _ _ => false

/-- XOR one set sprite bit into the grid, and note a pixel that goes from on to off. An off-grid pixel is dropped
(R171). -/
def drawPixel (acc : Display × Bool) (row col : Nat) : Display × Bool :=
  if h : row < 32 ∧ col < 64 then
    let cells := acc.1[row]'h.1
    let old := cells[col]'h.2
    (acc.1.set row (cells.set col (!old) h.2) h.1, acc.2 || old)
  else acc

/-- Draw one sprite byte: bit 7 is the leftmost pixel, and the column sum does not wrap (R171). -/
def drawByte (acc : Display × Bool) (row cx : Nat) (b : Byte) : Display × Bool :=
  (List.range 8).foldl (fun acc c => if b.getLsbD (7 - c) then drawPixel acc row (cx + c) else acc) acc

/-- Draw the sprite bytes on rising rows (R171). -/
def drawRows : List Byte → Nat → Nat → Display × Bool → Display × Bool
  | [], _, _, acc => acc
  | b :: bs, row, cx, acc => drawRows bs (row + 1) cx (drawByte acc row cx b)

/-! ## The fetch -/

/-- The two bytes at `pc`, or none where `pc + 1 >= MEM_SIZE` (R71, R105). -/
def State.fetch (s : State) : Option (Byte × Byte) :=
  if Config.memSize ≤ s.pc.toNat + 1 then none
  else some (s.mem.read s.pc.toNat, s.mem.read (s.pc.toNat + 1))

/-! ## The host's transitions -/

/-- A timer one tick later, stopping at zero (60_exceptions.md R230). -/
def tickDown (t : Byte) : Byte := if t = 0#8 then 0#8 else t - 1#8

/-- `Tick()`: both timers, in every status (R230, R237). -/
def State.tick (s : State) : State := { s with DT := tickDown s.DT, ST := tickDown s.ST }

/-- `KeyDown(k)`: resolves a pending key wait, and changes nothing otherwise (44_memory_timer_input.md R192). -/
def State.keyDown (s : State) (k : Nibble) : State :=
  match s.status with
  | .awaitingKey r => { s.setReg r (k.setWidth 8) with pc := s.pc + 2#16, status := .running }
  | .running => s
  | .faulted _ => s

/-- `KeyUp(k)`: never changes the core's state (R193). -/
def State.keyUp (s : State) (_k : Nibble) : State := s

/-- The transitions that remain to be invoked. -/
def State.setSchedule (s : State) (rest : List Transition) : State := { s with schedule := rest }

/-- Present the inputs of a step that the schedule gives (R101). -/
def State.present (s : State) (inputs : Inputs) (rest : List Transition) : State :=
  { s with inputs := inputs, schedule := rest }

/-- The free inputs of the n-th step whose inputs the schedule does not give (R101; log entry 3). -/
def freeInputs (n : Nat) : Inputs := ⟨Config.rndDraw n, Config.heldDraw n, Config.heldOorDraw n⟩

/-- Present free inputs, and count them (log entry 3). -/
def State.presentFree (s : State) : State := { s with inputs := freeInputs s.draws, draws := s.draws + 1 }

/-! ## Outputs -/

/-- The output `sound_active = (ST != 0)` (R232). -/
def State.soundActive (s : State) : Bool := decide (s.ST ≠ 0#8)

/-- What `Step` returned (R102). -/
inductive StepResult where
  | executed
  | waiting
  | fault (record : FaultRecord)
deriving DecidableEq, Repr

/-- The result of a `Step`, from the state it left: every path of R102 that leaves `Running` returns `Executed`, every
one that leaves `AwaitingKey` returns `Waiting`, and every one that leaves `Faulted(rec)` returns `Fault(rec)`. -/
def State.stepResult (s : State) : StepResult :=
  match s.status with
  | .running => .executed
  | .awaitingKey _ => .waiting
  | .faulted record => .fault record

/-- The numeric code of a fault (R220). -/
def Fault.code : Fault → Nat
  | .fetchOutOfBounds => 1
  | .stackUnderflow => 2
  | .stackOverflow => 3
  | .unknownOpcode => 4
  | .memoryOutOfBounds => 5

/-! ## Placing an instruction for the fetch -/

/-- `pc` where an instruction can be fetched from it: itself, or `0x200` where the fetch would run past memory. -/
def fetchable (pc : Word) : Word := if Config.memSize ≤ pc.toNat + 1 then 0x200#16 else pc

/-- The state with a word stored where the next step fetches, and with that step next: running, nothing scheduled before
it. -/
def State.placeWord (s : State) (word : Word) : State :=
  let pc := fetchable s.pc
  { s with
    pc := pc
    status := .running
    schedule := []
    mem := s.mem.writeBytes pc.toNat [hiByte word, loByte word] }

end Sys2Proof.Machine
end

