-- ==== Sys2Proof/Machine/Flags.lean ====
section
/-! DEFINITION. The results and flags of the arithmetic (42_alu.md R146 to R150, R154). Operands are taken as natural
numbers, the exact result is compared, and the narrowing is explicit. -/

namespace Sys2Proof.Machine

/-- `(a + b) mod 2^8` (R141, R146). -/
def addByte (a b : Byte) : Byte := BitVec.ofNat 8 (a.toNat + b.toNat)

/-- Carry out of bit 7: `a + b > 255` (R146). -/
def carryFlag (a b : Byte) : Bool := decide (a.toNat + b.toNat > 255)

/-- `(a - b) mod 2^8` (R147, R149). -/
def subByte (a b : Byte) : Byte := BitVec.ofInt 8 ((a.toNat : Int) - (b.toNat : Int))

/-- The borrow of `a - b`, 1 when it wrapped: `a < b` (R147, R149; the polarity is the document's). -/
def borrowFlag (a b : Byte) : Bool := decide (a.toNat < b.toNat)

/-- `a >> 1`, bit 7 of the result 0 (R148). -/
def shrByte (a : Byte) : Byte := BitVec.ofNat 8 (a.toNat / 2)

/-- The bit a right shift shifts out, bit 0 (R148). -/
def shrFlag (a : Byte) : Bool := a.getLsbD 0

/-- `(a << 1) mod 2^8`, bit 0 of the result 0 (R150). -/
def shlByte (a : Byte) : Byte := BitVec.ofNat 8 (a.toNat * 2)

/-- The bit a left shift shifts out, bit 7 (R150). -/
def shlFlag (a : Byte) : Bool := a.getLsbD 7

/-- `(I + zext_16(v)) mod 2^16` (R153). -/
def addIndex (i : Word) (v : Byte) : Word := BitVec.ofNat 16 (i.toNat + v.toNat)

/-- The decimal digits of a byte: hundreds, tens, ones (44_memory_timer_input.md R197). -/
def bcdDigits (v : Byte) : List Byte :=
  [BitVec.ofNat 8 (v.toNat / 100), BitVec.ofNat 8 (v.toNat / 10 % 10), BitVec.ofNat 8 (v.toNat % 10)]

end Sys2Proof.Machine
end

