-- ==== Sys2Proof/Machine/Operands.lean ====
section
/-! DEFINITION. The operand forms: addresses, the source of a shift, the keypad query, the glyph address and the byte
counts of the data accesses (30_encoding.md R73). -/

namespace Sys2Proof.Machine

/-- `zext_16(nnn)` (R73). -/
def addrWord (nnn : Addr) : Word := nnn.setWidth 16

/-- `zext_16(nnn) + zext_16(V[0])`, a 16-bit sum with no 12-bit mask (41_control_flow.md R127). -/
def State.indexedTarget (s : State) (nnn : Addr) : Word := addrWord nnn + (s.reg 0).setWidth 16

/-- The source of a shift: `V[x]` under `SHIFT_SOURCE = X`, `V[y]` under `Y` (42_alu.md R148, R150, D6). -/
def State.shiftOperand (s : State) (x y : Reg) : Byte :=
  match s.params.shiftSource with
  | .x => s.reg x
  | .y => s.reg y

/-- `KeyHeld(v)`: the keypad's answer for a key, the draw `held_oor` above 0xF (44_memory_timer_input.md R202). -/
def State.keyHeld (s : State) (v : Byte) : Bool :=
  if v.toNat ≤ 0xF then s.inputs.held.getLsbD v.toNat else s.inputs.heldOor

/-- `FONT_BASE + FONT_STRIDE * (v AND 0x0F)` (R196). -/
def State.glyphAddr (s : State) (v : Byte) : Word :=
  BitVec.ofNat 16 (s.params.fontBase.val + Config.fontStride * (v &&& 0x0F#8).toNat)

/-- The number of bytes `Fx55` and `Fx65` move, `x + 1` (R198, R199). -/
def blockLen (x : Reg) : Nat := x.val + 1

end Sys2Proof.Machine
end

