-- ==== Sys2Proof/Machine/Alu.lean ====
section
/-! DEFINITION. Register loads and ALU (42_alu.md). No body here faults, and every one answers `Seq`. -/

namespace Sys2Proof.Machine

/-- `6xnn` LD Vx, byte (R140). -/
def execLdVxByte (x : Reg) (nn : Byte) (s : State) : Host.Outcome State Fault Refusal :=
  complete (.ldVxByte x nn) s (s.setReg x nn) .seq

/-- `7xnn` ADD Vx, byte: no flag (R141). -/
def execAddVxByte (x : Reg) (nn : Byte) (s : State) : Host.Outcome State Fault Refusal :=
  complete (.addVxByte x nn) s (s.setReg x (addByte (s.reg x) nn)) .seq

/-- `8xy0` LD Vx, Vy (R142). -/
def execLdVxVy (x y : Reg) (s : State) : Host.Outcome State Fault Refusal :=
  complete (.ldVxVy x y) s (s.setReg x (s.reg y)) .seq

/-- `8xy1` OR Vx, Vy: no flag (R143, D7). -/
def execOrVxVy (x y : Reg) (s : State) : Host.Outcome State Fault Refusal :=
  complete (.orVxVy x y) s (s.setReg x (s.reg x ||| s.reg y)) .seq

/-- `8xy2` AND Vx, Vy: no flag (R144, D7). -/
def execAndVxVy (x y : Reg) (s : State) : Host.Outcome State Fault Refusal :=
  complete (.andVxVy x y) s (s.setReg x (s.reg x &&& s.reg y)) .seq

/-- `8xy3` XOR Vx, Vy: no flag (R145, D7). -/
def execXorVxVy (x y : Reg) (s : State) : Host.Outcome State Fault Refusal :=
  complete (.xorVxVy x y) s (s.setReg x (s.reg x ^^^ s.reg y)) .seq

/-- `8xy4` ADD Vx, Vy: `VF` is the carry (R146). -/
def execAddVxVy (x y : Reg) (s : State) : Host.Outcome State Fault Refusal :=
  complete (.addVxVy x y) s (s.setRegFlag x (addByte (s.reg x) (s.reg y)) (carryFlag (s.reg x) (s.reg y))) .seq

/-- `8xy5` SUB Vx, Vy: `VF` is the borrow of `Vx - Vy` (R147). -/
def execSubVxVy (x y : Reg) (s : State) : Host.Outcome State Fault Refusal :=
  complete (.subVxVy x y) s (s.setRegFlag x (subByte (s.reg x) (s.reg y)) (borrowFlag (s.reg x) (s.reg y))) .seq

/-- `8xy6` SHR Vx, Vy: `VF` is the bit shifted out (R148). -/
def execShrVxVy (x y : Reg) (s : State) : Host.Outcome State Fault Refusal :=
  complete (.shrVxVy x y) s (s.setRegFlag x (shrByte (s.shiftOperand x y)) (shrFlag (s.shiftOperand x y))) .seq

/-- `8xy7` SUBN Vx, Vy: `VF` is the borrow of `Vy - Vx` (R149). -/
def execSubnVxVy (x y : Reg) (s : State) : Host.Outcome State Fault Refusal :=
  complete (.subnVxVy x y) s (s.setRegFlag x (subByte (s.reg y) (s.reg x)) (borrowFlag (s.reg y) (s.reg x))) .seq

/-- `8xyE` SHL Vx, Vy: `VF` is the bit shifted out (R150). -/
def execShlVxVy (x y : Reg) (s : State) : Host.Outcome State Fault Refusal :=
  complete (.shlVxVy x y) s (s.setRegFlag x (shlByte (s.shiftOperand x y)) (shlFlag (s.shiftOperand x y))) .seq

/-- `Annn` LD I, addr (R151). -/
def execLdIAddr (nnn : Addr) (s : State) : Host.Outcome State Fault Refusal :=
  complete (.ldIAddr nnn) s { s with I := addrWord nnn } .seq

/-- `Cxnn` RND Vx, byte: `rnd` is the step's input, a draw (R152, D24). -/
def execRndVxByte (x : Reg) (nn : Byte) (s : State) : Host.Outcome State Fault Refusal :=
  complete (.rndVxByte x nn) s (s.setReg x (s.inputs.rnd &&& nn)) .seq

/-- `Fx1E` ADD I, Vx: a 16-bit wrap and no flag (R153). -/
def execAddIVx (x : Reg) (s : State) : Host.Outcome State Fault Refusal :=
  complete (.addIVx x) s { s with I := addIndex s.I (s.reg x) } .seq

end Sys2Proof.Machine
end

