-- ==== Sys2Proof/Machine/Control.lean ====
section
/-! DEFINITION. Control transfer: return, jump, call, skips, indexed jump (41_control_flow.md). -/

namespace Sys2Proof.Machine

/-- `00EE` RET: `pc` is the popped address, with no further +2; StackUnderflow on an empty stack (R120, D5). -/
def execRet (s : State) : Host.Outcome State Fault Refusal :=
  match s.pop with
  | some (t, s1) => complete .ret s s1 (.jump t)
  | none => complete .ret s s (.fault .stackUnderflow none)

/-- `1nnn` JP addr (R121). -/
def execJpAddr (nnn : Addr) (s : State) : Host.Outcome State Fault Refusal :=
  complete (.jpAddr nnn) s s (.jump (addrWord nnn))

/-- `2nnn` CALL addr: pushes `pc + 2`; StackOverflow with 16 entries (R122, D5). -/
def execCallAddr (nnn : Addr) (s : State) : Host.Outcome State Fault Refusal :=
  match s.push (s.pc + 2#16) with
  | some s1 => complete (.callAddr nnn) s s1 (.jump (addrWord nnn))
  | none => complete (.callAddr nnn) s s (.fault .stackOverflow none)

/-- `3xnn` SE Vx, byte (R123). -/
def execSeVxByte (x : Reg) (nn : Byte) (s : State) : Host.Outcome State Fault Refusal :=
  complete (.seVxByte x nn) s s (skipIf (decide (s.reg x = nn)))

/-- `4xnn` SNE Vx, byte (R124). -/
def execSneVxByte (x : Reg) (nn : Byte) (s : State) : Host.Outcome State Fault Refusal :=
  complete (.sneVxByte x nn) s s (skipIf (decide (s.reg x ≠ nn)))

/-- `5xy0` SE Vx, Vy (R125). -/
def execSeVxVy (x y : Reg) (s : State) : Host.Outcome State Fault Refusal :=
  complete (.seVxVy x y) s s (skipIf (decide (s.reg x = s.reg y)))

/-- `9xy0` SNE Vx, Vy (R126). -/
def execSneVxVy (x y : Reg) (s : State) : Host.Outcome State Fault Refusal :=
  complete (.sneVxVy x y) s s (skipIf (decide (s.reg x ≠ s.reg y)))

/-- `Bnnn` JP V0, addr (R127, D12). -/
def execJpV0Addr (nnn : Addr) (s : State) : Host.Outcome State Fault Refusal :=
  complete (.jpV0Addr nnn) s s (.jump (s.indexedTarget nnn))

end Sys2Proof.Machine
end

