-- ==== Sys2Proof/Machine/Screen.lean ====
section
/-! DEFINITION. The display instructions (43_display.md). -/

namespace Sys2Proof.Machine

/-- `00E0` CLS: `VF` is not written (R170). -/
def execCls (s : State) : Host.Outcome State Fault Refusal :=
  complete .cls s { s with display := s.display.clear } .seq

/-- The display after drawing `z` sprite rows from `I` at `(V[x], V[y])`, and whether a pixel went from on to off. -/
def State.drawn (s : State) (x y : Reg) (z : Nibble) : Display × Bool :=
  drawRows (s.mem.readBytes s.I.toNat z.toNat) (s.reg y).toNat (s.reg x).toNat (s.display, false)

/-- The state the body of `Dxyz` leaves: the display, then `VF` as the last write (R171). -/
def State.draw (s : State) (x y : Reg) (z : Nibble) : State :=
  { s with display := (s.drawn x y z).1 }.setReg VF (if (s.drawn x y z).2 then 1#8 else 0#8)

/-- `Dxyz` DRW Vx, Vy, nibble: the whole range is checked before any pixel changes (R171, D9, D18). -/
def execDrwVxVyNibble (x y : Reg) (z : Nibble) (s : State) : Host.Outcome State Fault Refusal :=
  guarded (.drwVxVyNibble x y z) s z.toNat (s.draw x y z)

end Sys2Proof.Machine
end

