-- ==== Sys2Proof/Machine/Timer.lean ====
section
/-! DEFINITION. Timers, key wait, key skips, font address, BCD and block transfer (44_memory_timer_input.md). -/

namespace Sys2Proof.Machine

/-- `Fx07` LD Vx, DT (R190). -/
def execLdVxDT (x : Reg) (s : State) : Host.Outcome State Fault Refusal :=
  complete (.ldVxDT x) s (s.setReg x s.DT) .seq

/-- `Fx0A` LD Vx, K: suspends; `V[x]` and `pc` wait for a KeyDown (R191, D15). -/
def execLdVxK (x : Reg) (s : State) : Host.Outcome State Fault Refusal :=
  complete (.ldVxK x) s s (.wait x)

/-- `Fx15` LD DT, Vx (R194). -/
def execLdDTVx (x : Reg) (s : State) : Host.Outcome State Fault Refusal :=
  complete (.ldDTVx x) s { s with DT := s.reg x } .seq

/-- `Fx18` LD ST, Vx (R195). -/
def execLdSTVx (x : Reg) (s : State) : Host.Outcome State Fault Refusal :=
  complete (.ldSTVx x) s { s with ST := s.reg x } .seq

/-- `Fx29` LD F, Vx: the low nibble selects the glyph (R196). -/
def execLdFVx (x : Reg) (s : State) : Host.Outcome State Fault Refusal :=
  complete (.ldFVx x) s { s with I := s.glyphAddr (s.reg x) } .seq

/-- `Fx33` LD B, Vx: three digits at `I`, checked before any write (R197, D9). -/
def execLdBVx (x : Reg) (s : State) : Host.Outcome State Fault Refusal :=
  guarded (.ldBVx x) s 3 { s with mem := s.mem.writeBytes s.I.toNat (bcdDigits (s.reg x)) }

/-- `Fx55` LD [I], Vx: `I` is not modified (R198, D9). -/
def execLdMemIVx (x : Reg) (s : State) : Host.Outcome State Fault Refusal :=
  guarded (.ldMemIVx x) s (blockLen x) { s with mem := s.mem.writeBytes s.I.toNat (s.regsUpTo x) }

/-- `Fx65` LD Vx, [I]: `I` is not modified (R199, D9). -/
def execLdVxMemI (x : Reg) (s : State) : Host.Outcome State Fault Refusal :=
  guarded (.ldVxMemI x) s (blockLen x) (s.loadRegs x)

/-- `Ex9E` SKP Vx (R200). -/
def execSkpVx (x : Reg) (s : State) : Host.Outcome State Fault Refusal :=
  complete (.skpVx x) s s (skipIf (s.keyHeld (s.reg x)))

/-- `ExA1` SKNP Vx (R201). -/
def execSknpVx (x : Reg) (s : State) : Host.Outcome State Fault Refusal :=
  complete (.sknpVx x) s s (skipIf (!s.keyHeld (s.reg x)))

end Sys2Proof.Machine
end

