-- ==== Sys2Proof/Machine/Cycle.lean ====
section
/-! DEFINITION. The step transition of 40_step_cycle.md R102, on a state whose inputs are presented. -/

namespace Sys2Proof.Machine

/-- Fetch, decode and execute, in the order of checks of 60_exceptions.md R224 (R102, R105, R106). -/
def runInstr (s : State) : Host.Outcome State Fault Refusal :=
  match s.fetch with
  | none => .next (s.commit .fetchOutOfBounds none none)
  | some (hi, lo) =>
    match decode hi lo with
    | .unknown _ => .next (s.commit .unknownOpcode (some (wordOfBytes hi lo)) none)
    | .instr i => exec i s

/-- `Step`: a faulted core and a waiting core do not change (R103, R104); a running one runs an instruction (R102). -/
def cycle (s : State) : Host.Outcome State Fault Refusal :=
  match s.status with
  | .faulted _ => .next s
  | .awaitingKey _ => .next s
  | .running => runInstr s

/-- One transition of the schedule; with nothing scheduled, a `Step` with free inputs (R100, R114; log entry 4). -/
def transition (s : State) : Host.Outcome State Fault Refusal :=
  match s.schedule with
  | [] => cycle s.presentFree
  | .step inputs :: rest => cycle (s.present inputs rest)
  | .tick :: rest => .next (s.setSchedule rest).tick
  | .keyDown k :: rest => .next ((s.setSchedule rest).keyDown k)
  | .keyUp k :: rest => .next ((s.setSchedule rest).keyUp k)

end Sys2Proof.Machine
end

