-- ==== Sys2Proof/Machine/Step.lean ====
section
/-! DEFINITION. One step of the machine, and an instruction placed where it fetches. -/

namespace Sys2Proof.Machine

/-- One atomic transition of the core (00_scope.md R6, 40_step_cycle.md R100). -/
def step (s : State) : Host.Outcome State Fault Refusal := transition s

/-- `s` with the instruction of an opcode-table row's word stored where `step` fetches next. A program is loaded from
outside the machine, by `Construct`; this stands for that load (log entry 7). -/
def State.withFetchWord (s : State) (nbits w : Nat) : State := s.placeWord (tableWord nbits w)

end Sys2Proof.Machine
end

