-- ==== Sys2Proof/WellFormed.lean ====
section
/-! DEFINITION. What is well formed before the machine sees it: an operand that fits its field, an instruction all of
whose operands do, and the three things the host supplies to `Construct` (70_reset_and_hazards.md R260, R261). -/

namespace Sys2Proof

/-- An operand fits its field (30_encoding.md R71, R73: unsigned, never scaled, never extended). -/
def Operand.wellFormed (o : Operand) : Bool := decide (o.value < 2 ^ o.width)

/-- Every operand fits its field. The types of `Instr` carry the widths, so every term of `Instr` passes. -/
def Instr.wellFormed (i : Instr) : Bool := i.operands.all Operand.wellFormed

/-- `FONT_BASE + 16 * FONT_STRIDE <= 0x200` (R7, R55). -/
def fontBaseFits (base : Nat) : Bool := decide (base + 16 * Config.fontStride ≤ 0x200)

/-- `FONT_DATA` is `16 * FONT_STRIDE` bytes (R55, R261). -/
def fontDataFits (font : List Byte) : Bool := decide (font.length = Config.fontBytes)

/-- The image is at most `MEM_SIZE - 0x200` bytes. A longer one is refused (R261, D21). -/
def imageFits (image : List Byte) : Bool := decide (image.length ≤ Config.memSize - Config.progBase)

end Sys2Proof
end

