-- ==== Sys2Proof/Machine/Construct.lean ====
section
/-! DEFINITION. `Construct(image, FONT_DATA)`: the only reset of the core (70_reset_and_hazards.md R260, R261). -/

namespace Sys2Proof.Machine

/-- Memory at construction: all zero, then the font data at `FONT_BASE`, then the image at `0x200` (R261). -/
def constructMemory (image font : List Byte) (fontBase : FontBase) : Memory :=
  Memory.writeBytes (Memory.writeBytes [] fontBase.val font) Config.progBase image

/-- `Construct`: a fresh state with the given parameters and the given transitions to come. None for an image that is
too long, which is refused (R261, D21), and for font data of another length than the table's (R55). -/
def construct (image font : List Byte) (params : Params) (schedule : List Transition) : Option State :=
  if imageFits image && fontDataFits font then
    some { State.reset with
      mem := constructMemory image font params.fontBase
      params := params
      schedule := schedule }
  else none

end Sys2Proof.Machine
end

