-- ==== Sys2Proof/Safety.lean ====
section
/-! DEFINITION. The terms of the claims: a safe state, the invariant of the machine, what an instruction may write, and
what a draw does to one pixel. -/

namespace Sys2Proof.Machine

/-! ## Safe runs -/

/-- No fault has been taken (10_state.md R30). -/
def State.Safe (s : State) : Prop := ∀ record, s.status ≠ .faulted record

/-- `n` transitions from `s` meet no fault. -/
def SafeRun (n : Nat) (s : State) : Prop :=
  ∀ k ≤ n, ∀ t, Host.Core.run Sys2Proof.core k s = .next t → State.Safe t

/-! ## The step the schedule asks for -/

/-- The state with its inputs presented, where the next transition is a `Step`; none where it is a tick or a key event. -/
def State.presented (s : State) : Option State :=
  match s.schedule with
  | [] => some s.presentFree
  | .step inputs :: rest => some (s.present inputs rest)
  | .tick :: _ => none
  | .keyDown _ :: _ => none
  | .keyUp _ :: _ => none

/-! ## The invariant -/

/-- What the fault record says of the state it stands in: `pc` is the faulting address, the word is the one at `pc` and
is absent exactly for a fetch fault, the access is present exactly for a data fault (60_exceptions.md R221). -/
structure FaultRecord.Describes (record : FaultRecord) (s : State) : Prop where
  atPc : record.pc = s.pc
  noWord : record.word = none ↔ record.kind = .fetchOutOfBounds
  atWord : ∀ word, record.word = some word → ∃ hi lo, s.fetch = some (hi, lo) ∧ wordOfBytes hi lo = word
  noAccess : record.access = none ↔ record.kind ≠ .memoryOutOfBounds

/-- The invariant of the machine: memory keeps its canonical form; the stack holds at most 16 entries (R26), each an
address a call can push; `pc` stays below `2^16` with room to spare (R111); a waiting core stands at the `Fx0A` it
suspended (R30); a fault record describes the state it stands in (R221). -/
structure State.Inv (s : State) : Prop where
  memory : s.mem.wf = true
  depth : s.stack.length ≤ Config.stackDepth
  returns : ∀ a ∈ s.stack, a.toNat ≤ 0x1000
  pcBound : s.pc.toNat ≤ 0x10FE
  waiting : ∀ r, s.status = .awaitingKey r → ∃ hi lo, s.fetch = some (hi, lo) ∧ decode hi lo = .instr (.ldVxK r)
  faulted : ∀ record, s.status = .faulted record → record.Describes s

/-! ## Frames -/

/-- What an instruction may write beside `pc`: registers, the other parts of the state, and `len` bytes from `base`. -/
structure Writes where
  regs : List Reg := []
  index : Bool := false
  delay : Bool := false
  sound : Bool := false
  stack : Bool := false
  display : Bool := false
  status : Bool := false
  base : Nat := 0
  len : Nat := 0

/-- `t` agrees with `s` on everything outside `w` and `pc`: the registers, `I`, the timers, the stack, the display, the
status, every byte of memory, and the parts no instruction writes. -/
structure Keeps (w : Writes) (s t : State) : Prop where
  regs : ∀ r, r ∉ w.regs → t.reg r = s.reg r
  index : w.index = false → t.I = s.I
  delay : w.delay = false → t.DT = s.DT
  sound : w.sound = false → t.ST = s.ST
  stack : w.stack = false → t.stack = s.stack
  display : w.display = false → t.display = s.display
  status : w.status = false → t.status = s.status
  bytes : ∀ a, ¬(w.base ≤ a ∧ a < w.base + w.len) → t.mem.read a = s.mem.read a
  variant : t.variant = s.variant
  params : t.params = s.params
  inputs : t.inputs = s.inputs
  schedule : t.schedule = s.schedule
  draws : t.draws = s.draws

/-- The instruction faults in `s`: the checks its body makes before any effect (R51, R120, R122, R171, R197 to R199). -/
def FaultsIn (s : State) : Instr → Prop
  | .ret => s.stack = []
  | .callAddr _ => Config.stackDepth ≤ s.stack.length
  | .drwVxVyNibble _ _ z => 0 < z.toNat ∧ Config.memSize ≤ s.I.toNat + z.toNat - 1
  | .ldBVx _ => Config.memSize ≤ s.I.toNat + 2
  | .ldMemIVx x => Config.memSize ≤ s.I.toNat + x.val
  | .ldVxMemI x => Config.memSize ≤ s.I.toNat + x.val
  | _ => False

/-- Everything an instruction writes beside `pc` when it does not fault, from the readers and writers of 10_state.md
R20, R25, R26, R28, R29, R33 and 20_memory.md R59. -/
def writesOf (s : State) : Instr → Writes
  | .cls => { display := true }
  | .ret => { stack := true }
  | .jpAddr _ => {}
  | .callAddr _ => { stack := true }
  | .seVxByte _ _ => {}
  | .sneVxByte _ _ => {}
  | .seVxVy _ _ => {}
  | .ldVxByte x _ => { regs := [x] }
  | .addVxByte x _ => { regs := [x] }
  | .ldVxVy x _ => { regs := [x] }
  | .orVxVy x _ => { regs := [x] }
  | .andVxVy x _ => { regs := [x] }
  | .xorVxVy x _ => { regs := [x] }
  | .addVxVy x _ => { regs := [x, VF] }
  | .subVxVy x _ => { regs := [x, VF] }
  | .shrVxVy x _ => { regs := [x, VF] }
  | .subnVxVy x _ => { regs := [x, VF] }
  | .shlVxVy x _ => { regs := [x, VF] }
  | .sneVxVy _ _ => {}
  | .ldIAddr _ => { index := true }
  | .jpV0Addr _ => {}
  | .rndVxByte x _ => { regs := [x] }
  | .drwVxVyNibble _ _ _ => { regs := [VF], display := true }
  | .skpVx _ => {}
  | .sknpVx _ => {}
  | .ldVxDT x => { regs := [x] }
  | .ldVxK _ => { status := true }
  | .ldDTVx _ => { delay := true }
  | .ldSTVx _ => { sound := true }
  | .addIVx _ => { index := true }
  | .ldFVx _ => { index := true }
  | .ldBVx _ => { base := s.I.toNat, len := 3 }
  | .ldMemIVx x => { base := s.I.toNat, len := blockLen x }
  | .ldVxMemI x => { regs := (List.finRange 16).filter (· ≤ x) }

/-- `exec i s` answers a next state that satisfies `P` and keeps everything outside `w` and `pc`. -/
def Completes (i : Instr) (s : State) (w : Writes) (P : State → Prop) : Prop :=
  ∃ t, exec i s = .next t ∧ P t ∧ Keeps w s t

/-- The instruction's word has the fixed bits of the spec's encoding, its mask and match. -/
def Encoded (i : Instr) (mask pattern : Word) : Prop := Row.selects ⟨mask, pattern⟩ (encode i) = true

/-! ## Sprites -/

/-- The sprite bit that a draw of `z` rows from `I` at column `cx` and row `cy` XORs into the pixel at `row`, `col`:
row `row - cy` of the sprite, bit 7 leftmost, and 0 for a pixel the sprite does not cover (43_display.md R171, R172). -/
def State.spriteBit (s : State) (cx cy z row col : Nat) : Bool :=
  decide (cy ≤ row ∧ row < cy + z ∧ cx ≤ col ∧ col < cx + 8) &&
    (s.mem.read (s.I.toNat + (row - cy))).getLsbD (7 - (col - cx))

end Sys2Proof.Machine
end

