-- ==== Sys2Proof/Certificates/Slice0/Obligations.lean ====
section
/-! DEFINITION. The statements about the model. A docstring names the rule of spec/ a statement formalises, or the
decision of the spec (92_eei_decisions.md), or the model's log entry, that it rests on. -/

open Sys2Proof Sys2Proof.Machine

/-! ## Encoding (30_encoding.md) -/

/-- No bit of an encoding is dropped: decoding the two bytes of any instruction gives it back, with every operand at
every value. Rests on the spec's own D3 (strict matching) and on R77's general-knowledge `z` values. -/
def Obligations.DecodeOfEncode : Prop :=
  ∀ i : Instr, decode (hiByte (encode i)) (loByte (encode i)) = .instr i

/-- Each instruction word has one meaning: the instruction a word decodes to encodes to that word. -/
def Obligations.EncodeOfDecode : Prop :=
  ∀ (hi lo : Byte) (i : Instr), decode hi lo = .instr i → encode i = wordOfBytes hi lo

/-- The decoder agrees with the masks and matches of the opcode table: a word that decodes has its row's fixed bits, and
a word is Unknown exactly when no row of the 34 selects it (R80, a derivation of the spec). -/
def Obligations.DecodeAgreesWithTable : Prop :=
  ∀ hi lo : Byte,
    (∀ i, decode hi lo = .instr i → i.row.selects (wordOfBytes hi lo) = true) ∧
    ((∃ why, decode hi lo = .unknown why) ↔ ∀ r ∈ opcodeTable, r.selects (wordOfBytes hi lo) = false)

/-- No two of the 34 rows of the opcode table select the same word. -/
def Obligations.TableRowsDisjoint : Prop :=
  opcodeTable.length = 34 ∧
    ∀ word : Word, opcodeTable.Pairwise fun r q => ¬(r.selects word = true ∧ q.selects word = true)

/-- R78: in group 0xE, `nn` selects; `0x9E` is SKP, `0xA1` is SKNP, every other `nn` is Unknown. -/
def Obligations.GroupESelectedByNN : Prop :=
  ∀ (x : Reg) (nn : Byte), decode (BitVec.ofNat 8 (0xE0 + x.val)) nn =
    if nn = 0x9E#8 then .instr (.skpVx x) else if nn = 0xA1#8 then .instr (.sknpVx x) else .unknown .groupE

/-- R79: in group 0xF, `nn` selects one of nine instructions; every other `nn` is Unknown. -/
def Obligations.GroupFSelectedByNN : Prop :=
  ∀ (x : Reg) (nn : Byte), decode (BitVec.ofNat 8 (0xF0 + x.val)) nn =
    if nn = 0x07#8 then .instr (.ldVxDT x)
    else if nn = 0x0A#8 then .instr (.ldVxK x)
    else if nn = 0x15#8 then .instr (.ldDTVx x)
    else if nn = 0x18#8 then .instr (.ldSTVx x)
    else if nn = 0x1E#8 then .instr (.addIVx x)
    else if nn = 0x29#8 then .instr (.ldFVx x)
    else if nn = 0x33#8 then .instr (.ldBVx x)
    else if nn = 0x55#8 then .instr (.ldMemIVx x)
    else if nn = 0x65#8 then .instr (.ldVxMemI x)
    else .unknown .groupF

/-- The Unknown words are those of R80's table (a derivation of the spec; it rests on D3 and D4). -/
def Obligations.UnknownWordsAreTheTable : Prop :=
  ∀ hi lo : Byte, (∃ why, decode hi lo = .unknown why) ↔
    (hi.toNat / 16 = 0x0 ∧ ¬(hi.toNat = 0 ∧ (lo.toNat = 0xE0 ∨ lo.toNat = 0xEE))) ∨
    (hi.toNat / 16 = 0x5 ∧ lo.toNat % 16 ≠ 0) ∨
    (hi.toNat / 16 = 0x8 ∧ 8 ≤ lo.toNat % 16 ∧ lo.toNat % 16 ≠ 0xE) ∨
    (hi.toNat / 16 = 0x9 ∧ lo.toNat % 16 ≠ 0) ∨
    (hi.toNat / 16 = 0xE ∧ lo.toNat ≠ 0x9E ∧ lo.toNat ≠ 0xA1) ∨
    (hi.toNat / 16 = 0xF ∧ lo.toNat ∉ [0x07, 0x0A, 0x15, 0x18, 0x1E, 0x29, 0x33, 0x55, 0x65])

/-- R71: the fetched bytes, the word they form and the fields of the word. -/
def Obligations.FieldsOfTheFetchedWord : Prop :=
  ∀ s : State, s.pc.toNat + 1 < 4096 → ∃ hi lo, s.fetch = some (hi, lo) ∧
    hi = s.mem.read s.pc.toNat ∧ lo = s.mem.read (s.pc.toNat + 1) ∧
    ∀ word, word = wordOfBytes hi lo →
      word.toNat = hi.toNat * 256 + lo.toNat ∧
      (fieldW word).toNat = word.toNat / 4096 ∧ (fieldX word).toNat = word.toNat / 256 % 16 ∧
      (fieldY word).toNat = word.toNat / 16 % 16 ∧ (fieldZ word).toNat = word.toNat % 16 ∧
      (fieldNN word).toNat = word.toNat % 256 ∧
      (fieldNN word).toNat = (fieldY word).toNat <<< 4 ||| (fieldZ word).toNat ∧
      (fieldNNN word).toNat = word.toNat % 4096 ∧
      (fieldNNN word).toNat = (fieldX word).toNat <<< 8 ||| (fieldNN word).toNat

/-- The fifteen decode vectors of 95_test_vectors.md 2.1 and three words of its examples. The spec's vectors say Unknown
alone; the group beside it is the model's (log entry 15). -/
def Obligations.SampleWordsDecode : Prop :=
  decode 0x00#8 0xE0#8 = .instr .cls ∧ decode 0x00#8 0xEE#8 = .instr .ret ∧
  decode 0x00#8 0x00#8 = .unknown .group0 ∧ decode 0x01#8 0xE0#8 = .unknown .group0 ∧
  decode 0x00#8 0xFF#8 = .unknown .group0 ∧ decode 0x81#8 0x2F#8 = .unknown .group8 ∧
  decode 0x51#8 0x21#8 = .unknown .group5 ∧ decode 0x91#8 0x20#8 = .instr (.sneVxVy 1 2) ∧
  decode 0x81#8 0x28#8 = .unknown .group8 ∧ decode 0x81#8 0x2E#8 = .instr (.shlVxVy 1 2) ∧
  decode 0xE1#8 0x9E#8 = .instr (.skpVx 1) ∧ decode 0xE1#8 0xA2#8 = .unknown .groupE ∧
  decode 0xF3#8 0x0A#8 = .instr (.ldVxK 3) ∧ decode 0xF3#8 0x75#8 = .unknown .groupF ∧
  decode 0xD1#8 0x20#8 = .instr (.drwVxVyNibble 1 2 0#4) ∧ decode 0xA2#8 0x00#8 = .instr (.ldIAddr 0x200#12) ∧
  decode 0x70#8 0xFF#8 = .instr (.addVxByte 0 0xFF#8) ∧ decode 0x22#8 0x10#8 = .instr (.callAddr 0x210#12)

/-! ## The step cycle, faults and the host (40_step_cycle.md, 60_exceptions.md) -/

/-- A running core whose bytes at `pc` decode to `i` runs `i`: on the free inputs where nothing is scheduled, and on the
scheduled step's inputs where a step is (log entries 3 and 4 for how inputs arrive). -/
def Obligations.StepRunsDecodedInstruction : Prop :=
  ∀ (s : State) (i : Instr), s.status = .running → s.pc.toNat + 1 < 4096 →
    decode (s.mem.read s.pc.toNat) (s.mem.read (s.pc.toNat + 1)) = .instr i →
    (s.schedule = [] → step s = exec i { s with inputs := freeInputs s.draws, draws := s.draws + 1 }) ∧
    (∀ inputs rest, s.schedule = .step inputs :: rest →
      step s = exec i { s with inputs := inputs, schedule := rest })

/-- R105: the step raises FetchOutOfBounds if `pc >= 0xFFF`, and otherwise fetches the two bytes at `pc` and raises it
never. -/
def Obligations.FetchOutOfBoundsExactly : Prop :=
  ∀ s p : State, s.presented = some p → s.status = .running →
    (0xFFF ≤ s.pc.toNat → ∃ t record, step s = .next t ∧ t.stepResult = .fault record ∧
      record.kind = .fetchOutOfBounds) ∧
    (s.pc.toNat < 0xFFF → p.fetch = some (s.mem.read s.pc.toNat, s.mem.read (s.pc.toNat + 1)) ∧
      ∀ t record, step s = .next t → t.stepResult = .fault record → record.kind ≠ .fetchOutOfBounds)

/-- A running core whose fetched word is Unknown takes UnknownOpcode, with `pc` and the word in the record, and nothing
else changes (the record and the effect are the spec's own D23 and D8). -/
def Obligations.UnknownWordFaults : Prop :=
  ∀ (s p : State) (why : Unknown), s.presented = some p → s.status = .running → s.pc.toNat + 1 < 4096 →
    decode (s.mem.read s.pc.toNat) (s.mem.read (s.pc.toNat + 1)) = .unknown why →
    step s = .next { p with
      status := .faulted ⟨.unknownOpcode, s.pc,
        some (wordOfBytes (s.mem.read s.pc.toNat) (s.mem.read (s.pc.toNat + 1))), none⟩ }

/-- Faults are precise: a step that takes a fault changes the status alone, and the record holds the faulting address,
the word unless the fetch faulted, and the access exactly for a data fault (the spec's own D8 and D23). -/
def Obligations.FaultsArePrecise : Prop :=
  ∀ (s p t : State) (record : FaultRecord), s.presented = some p → s.status = .running → step s = .next t →
    t.status = .faulted record →
    t = { p with status := .faulted record } ∧ record.pc = s.pc ∧
    (∀ word, record.word = some word →
      word = wordOfBytes (s.mem.read s.pc.toNat) (s.mem.read (s.pc.toNat + 1))) ∧
    (record.word = none ↔ record.kind = .fetchOutOfBounds) ∧
    (record.access = none ↔ record.kind ≠ .memoryOutOfBounds)

/-- Which instruction faults, when, and with which kind: `00EE` on an empty stack, `2nnn` on a full one, the four data
instructions past the end of memory, and no other (R220; the data fault is the spec's own D9). -/
def Obligations.FaultCauses : Prop :=
  ∀ (s : State) (i : Instr), s.status = .running → ∃ t, exec i s = .next t ∧
    ((∃ record, t.status = .faulted record) ↔ FaultsIn s i) ∧
    ∀ record, t.status = .faulted record → record.kind =
      match i with
      | .ret => Fault.stackUnderflow
      | .callAddr _ => Fault.stackOverflow
      | _ => Fault.memoryOutOfBounds

/-- A fault is sticky: no transition clears it, a step changes nothing and returns the record again, and of the core's
state only the timers can still change, by a tick (the spec's own D8 and D32). -/
def Obligations.FaultIsSticky : Prop :=
  ∀ (s : State) (record : FaultRecord), s.status = .faulted record → ∃ t, step s = .next t ∧
    t = { s with DT := t.DT, ST := t.ST, inputs := t.inputs, schedule := t.schedule, draws := t.draws } ∧
    (∀ p, s.presented = some p → t = p ∧ t.stepResult = .fault record) ∧
    (∀ k rest, s.schedule = .keyDown k :: rest → t = { s with schedule := rest }) ∧
    (∀ rest, s.schedule = .tick :: rest → t.DT.toNat = s.DT.toNat - 1 ∧ t.ST.toNat = s.ST.toNat - 1)

/-- R236: the wait is entered by `Fx0A` alone and woken by KeyDown alone; every register, `I`, memory, the stack, the
display and `pc` are kept during it, and the timers count down on ticks. The last three clauses say all a transition
other than KeyDown does: a Step changes nothing and returns Waiting (the spec's own D16), a KeyUp changes nothing (D25), a
tick changes the timers alone (D32). -/
def Obligations.WaitIsEnteredByKeyWaitAndWokenByKeyDown : Prop :=
  (∀ (s t : State) (r : Reg), s.status = .running → step s = .next t → t.status = .awaitingKey r →
    s.pc.toNat + 1 < 4096 ∧
    decode (s.mem.read s.pc.toNat) (s.mem.read (s.pc.toNat + 1)) = .instr (.ldVxK r)) ∧
  (∀ (s t : State) (r : Reg), s.status = .awaitingKey r → step s = .next t →
    (t.status = .running ↔ ∃ k rest, s.schedule = .keyDown k :: rest) ∧
    ((∀ k rest, s.schedule ≠ .keyDown k :: rest) →
      t.status = .awaitingKey r ∧ (∀ q, t.reg q = s.reg q) ∧ t.I = s.I ∧ (∀ a, t.mem.read a = s.mem.read a) ∧
      t.stack = s.stack ∧ t.display = s.display ∧ t.pc = s.pc) ∧
    (∀ p, s.presented = some p → t = p ∧ t.stepResult = .waiting) ∧
    (∀ k rest, s.schedule = .keyUp k :: rest → t = { s with schedule := rest }) ∧
    (∀ rest, s.schedule = .tick :: rest → t.DT.toNat = s.DT.toNat - 1 ∧ t.ST.toNat = s.ST.toNat - 1 ∧
      t = { s with DT := t.DT, ST := t.ST, schedule := rest }))

/-- A key event: KeyDown ends a wait in one transition, writing the key and advancing past the `Fx0A`, and changes
nothing in another status; KeyUp changes nothing (the spec's own D15 and D25). -/
def Obligations.KeyEvents : Prop :=
  ∀ (s : State) (k : Nibble) (rest : List Transition),
    (s.schedule = .keyDown k :: rest →
      (∀ r, s.status = .awaitingKey r → ∃ t, step s = .next t ∧ t.reg r = k.setWidth 8 ∧ t.pc = s.pc + 2#16 ∧
        t.status = .running ∧ Keeps { regs := [r], status := true } { s with schedule := rest } t) ∧
      ((∀ r, s.status ≠ .awaitingKey r) → step s = .next { s with schedule := rest })) ∧
    (s.schedule = .keyUp k :: rest → step s = .next { s with schedule := rest })

/-- A tick decrements both timers, stopping at zero, in every status, and changes no other part of the core (D32). -/
def Obligations.TickDecrementsTimers : Prop :=
  ∀ (s : State) (rest : List Transition), s.schedule = .tick :: rest → ∃ t, step s = .next t ∧
    t.DT.toNat = s.DT.toNat - 1 ∧ t.ST.toNat = s.ST.toNat - 1 ∧
    t = { s with DT := t.DT, ST := t.ST, schedule := rest }

/-- Every step of the machine answers a next state: nothing is refused and nothing stops the machine. That a fault is a
next state is the model's reading of R109 and R225 (log entry 5). -/
def Obligations.StepAlwaysAnswers : Prop := ∀ s : State, ∃ t, step s = .next t

/-- R112: every instruction except `Fx0A` runs to completion within its step; `Fx0A` is the only suspension point. -/
def Obligations.OnlyKeyWaitSuspends : Prop :=
  ∀ (s : State) (i : Instr), s.status = .running → ∃ t, exec i s = .next t ∧
    ((∃ r, t.status = .awaitingKey r) ↔ ∃ x, i = .ldVxK x)

/-- The central advance (R108): where an instruction does not fault, the four jumps set `pc` to their targets with no
further +2, `Fx0A` leaves it, the six skips move it by 2 or 4, and every other instruction moves it by 2. The targets
of `00EE`, `2nnn` and `Bnnn` rest on the spec's own D5 and D12. -/
def Obligations.CentralAdvance : Prop :=
  ∀ (s t : State) (i : Instr), exec i s = .next t → ¬FaultsIn s i →
    match i with
    | .ret => s.stack.getLast? = some t.pc
    | .jpAddr nnn => t.pc.toNat = nnn.toNat
    | .callAddr nnn => t.pc.toNat = nnn.toNat
    | .jpV0Addr nnn => t.pc.toNat = nnn.toNat + (s.reg 0).toNat
    | .ldVxK _ => t.pc = s.pc
    | .seVxByte _ _ | .sneVxByte _ _ | .seVxVy _ _ | .sneVxVy _ _ | .skpVx _ | .sknpVx _ =>
      t.pc = s.pc + 2#16 ∨ t.pc = s.pc + 4#16
    | _ => t.pc = s.pc + 2#16

/-- R113: a `1nnn` whose target is its own address is executed again by every later step, with no other change, for any
number of steps. -/
def Obligations.SelfJumpLoops : Prop :=
  ∀ (s : State) (nnn : Addr) (k : Nat), s.status = .running → s.pc = nnn.setWidth 16 → s.pc.toNat + 1 < 4096 →
    decode (s.mem.read s.pc.toNat) (s.mem.read (s.pc.toNat + 1)) = .instr (.jpAddr nnn) →
    (∀ e ∈ s.schedule, ∃ inputs, e = .step inputs) →
    ∃ t, Host.Core.run Sys2Proof.core k s = .next t ∧
      t = { s with inputs := t.inputs, schedule := t.schedule, draws := t.draws }

/-! ## Control transfer (41_control_flow.md) -/

/-- `00EE` pops: `pc` is the last address of the stack, with no further +2; on an empty stack it takes StackUnderflow
with no other effect (R120, the spec's own D5 and D8). -/
def Obligations.ReturnPopsOrUnderflows : Prop :=
  Encoded .ret 0xFFFF#16 0x00EE#16 ∧
  (∀ (s : State) (rest : List Word) (a : Word), s.stack = rest ++ [a] →
    Completes .ret s { stack := true } fun t => t.pc = a ∧ t.stack = rest) ∧
  (∀ s : State, s.stack = [] →
    exec .ret s = .next { s with status := .faulted ⟨.stackUnderflow, s.pc, some 0x00EE#16, none⟩ })

/-- `2nnn` pushes `pc + 2` and jumps; with 16 entries it takes StackOverflow with no other effect (R122, D5, D8). -/
def Obligations.CallPushesOrOverflows : Prop :=
  ∀ (s : State) (nnn : Addr), Encoded (.callAddr nnn) 0xF000#16 0x2000#16 ∧
    (s.stack.length < 16 → Completes (.callAddr nnn) s { stack := true } fun t =>
      t.pc.toNat = nnn.toNat ∧ t.stack = s.stack ++ [s.pc + 2#16]) ∧
    (16 ≤ s.stack.length → exec (.callAddr nnn) s =
      .next { s with status := .faulted ⟨.stackOverflow, s.pc, some (encode (.callAddr nnn)), none⟩ })

/-- A return after a call goes to the instruction after the call and restores the stack, whatever ran between left the
stack as the call did (D5). -/
def Obligations.CallThenReturn : Prop :=
  ∀ (s t u : State) (nnn : Addr), s.stack.length < 16 → exec (.callAddr nnn) s = .next t → u.stack = t.stack →
    ∃ v, exec .ret u = .next v ∧ v.pc = s.pc + 2#16 ∧ v.stack = s.stack

/-- R121: `1nnn` sets `pc` to the 12-bit target and changes nothing else. -/
def Obligations.JumpSetsPc : Prop :=
  ∀ (s : State) (nnn : Addr), Encoded (.jpAddr nnn) 0xF000#16 0x1000#16 ∧
    Completes (.jpAddr nnn) s {} fun t => t.pc = nnn.setWidth 16

/-- R123 and R124: `3xnn` skips if `V[x]` equals the byte, `4xnn` if it differs; neither changes anything but `pc`. -/
def Obligations.SkipsOnByte : Prop :=
  ∀ (s : State) (x : Reg) (nn : Byte),
    Encoded (.seVxByte x nn) 0xF000#16 0x3000#16 ∧ Encoded (.sneVxByte x nn) 0xF000#16 0x4000#16 ∧
    (Completes (.seVxByte x nn) s {} fun t => t.pc = if s.reg x = nn then s.pc + 4#16 else s.pc + 2#16) ∧
    (Completes (.sneVxByte x nn) s {} fun t => t.pc = if s.reg x ≠ nn then s.pc + 4#16 else s.pc + 2#16)

/-- R125 and R126: `5xy0` skips if the two registers are equal, `9xy0` if they differ. -/
def Obligations.SkipsOnRegister : Prop :=
  ∀ (s : State) (x y : Reg),
    Encoded (.seVxVy x y) 0xF00F#16 0x5000#16 ∧ Encoded (.sneVxVy x y) 0xF00F#16 0x9000#16 ∧
    (Completes (.seVxVy x y) s {} fun t => t.pc = if s.reg x = s.reg y then s.pc + 4#16 else s.pc + 2#16) ∧
    (Completes (.sneVxVy x y) s {} fun t => t.pc = if s.reg x ≠ s.reg y then s.pc + 4#16 else s.pc + 2#16)

/-- `Bnnn` jumps to the unmasked sum of the address and `V[0]`, whatever the `x` nibble is (R127, the spec's own D12). -/
def Obligations.IndexedJump : Prop :=
  ∀ (s : State) (nnn : Addr), Encoded (.jpV0Addr nnn) 0xF000#16 0xB000#16 ∧
    Completes (.jpV0Addr nnn) s {} fun t => t.pc.toNat = nnn.toNat + (s.reg 0).toNat

/-! ## Register loads and ALU (42_alu.md) -/

/-- R140: `6xnn` loads the byte; no flag. -/
def Obligations.LoadByte : Prop :=
  ∀ (s : State) (x : Reg) (nn : Byte), Encoded (.ldVxByte x nn) 0xF000#16 0x6000#16 ∧
    Completes (.ldVxByte x nn) s { regs := [x] } fun t => t.reg x = nn ∧ t.pc = s.pc + 2#16

/-- R141: `7xnn` adds the byte mod 256; no flag, so `VF` changes only as the destination. -/
def Obligations.AddByteNoFlag : Prop :=
  ∀ (s : State) (x : Reg) (nn : Byte), Encoded (.addVxByte x nn) 0xF000#16 0x7000#16 ∧
    Completes (.addVxByte x nn) s { regs := [x] } fun t =>
      (t.reg x).toNat = ((s.reg x).toNat + nn.toNat) % 256 ∧ t.pc = s.pc + 2#16

/-- R142: `8xy0` copies a register; no flag. -/
def Obligations.CopyRegister : Prop :=
  ∀ (s : State) (x y : Reg), Encoded (.ldVxVy x y) 0xF00F#16 0x8000#16 ∧
    Completes (.ldVxVy x y) s { regs := [x] } fun t => t.reg x = s.reg y ∧ t.pc = s.pc + 2#16

/-- `8xy1`, `8xy2`, `8xy3` work bit by bit and write no flag (R143 to R145; that `VF` is kept is the spec's own D7). -/
def Obligations.LogicBitByBit : Prop :=
  ∀ (s : State) (x y : Reg),
    Encoded (.orVxVy x y) 0xF00F#16 0x8001#16 ∧ Encoded (.andVxVy x y) 0xF00F#16 0x8002#16 ∧
    Encoded (.xorVxVy x y) 0xF00F#16 0x8003#16 ∧
    (Completes (.orVxVy x y) s { regs := [x] } fun t => t.pc = s.pc + 2#16 ∧
      ∀ k, (t.reg x).getLsbD k = ((s.reg x).getLsbD k || (s.reg y).getLsbD k)) ∧
    (Completes (.andVxVy x y) s { regs := [x] } fun t => t.pc = s.pc + 2#16 ∧
      ∀ k, (t.reg x).getLsbD k = ((s.reg x).getLsbD k && (s.reg y).getLsbD k)) ∧
    (Completes (.xorVxVy x y) s { regs := [x] } fun t => t.pc = s.pc + 2#16 ∧
      ∀ k, (t.reg x).getLsbD k = ((s.reg x).getLsbD k ^^ (s.reg y).getLsbD k))

/-- R146: `8xy4` writes the sum mod 256 to `V[x]`, then the carry to `VF`; with `x = F` the sum is lost. -/
def Obligations.AddWithCarry : Prop :=
  ∀ (s : State) (x y : Reg), Encoded (.addVxVy x y) 0xF00F#16 0x8004#16 ∧
    Completes (.addVxVy x y) s { regs := [x, VF] } fun t =>
      (x ≠ VF → (t.reg x).toNat = ((s.reg x).toNat + (s.reg y).toNat) % 256) ∧
      (t.reg VF).toNat = (if (s.reg x).toNat + (s.reg y).toNat > 255 then 1 else 0) ∧ t.pc = s.pc + 2#16

/-- R147: `8xy5` writes `Vx - Vy` mod 256, then the borrow to `VF`, 1 when `Vx < Vy`. -/
def Obligations.SubtractWithBorrow : Prop :=
  ∀ (s : State) (x y : Reg), Encoded (.subVxVy x y) 0xF00F#16 0x8005#16 ∧
    Completes (.subVxVy x y) s { regs := [x, VF] } fun t =>
      (x ≠ VF → ((t.reg x).toNat : Int) = ((s.reg x).toNat - (s.reg y).toNat : Int) % 256) ∧
      (t.reg VF).toNat = (if (s.reg x).toNat < (s.reg y).toNat then 1 else 0) ∧ t.pc = s.pc + 2#16

/-- R149: `8xy7` writes `Vy - Vx` mod 256, then the borrow to `VF`, 1 when `Vy < Vx`. -/
def Obligations.ReverseSubtractWithBorrow : Prop :=
  ∀ (s : State) (x y : Reg), Encoded (.subnVxVy x y) 0xF00F#16 0x8007#16 ∧
    Completes (.subnVxVy x y) s { regs := [x, VF] } fun t =>
      (x ≠ VF → ((t.reg x).toNat : Int) = ((s.reg y).toNat - (s.reg x).toNat : Int) % 256) ∧
      (t.reg VF).toNat = (if (s.reg y).toNat < (s.reg x).toNat then 1 else 0) ∧ t.pc = s.pc + 2#16

/-- `8xy6` writes the source halved, then the bit shifted out to `VF`; the source is `V[x]` under `SHIFT_SOURCE = X` and
`V[y]` under `Y` (R148, the spec's parameter D6: stated for both values). -/
def Obligations.ShiftRight : Prop :=
  ∀ (s : State) (x y : Reg) (a : Byte), Encoded (.shrVxVy x y) 0xF00F#16 0x8006#16 ∧
    ((s.params.shiftSource = .x ∧ a = s.reg x) ∨ (s.params.shiftSource = .y ∧ a = s.reg y) →
      Completes (.shrVxVy x y) s { regs := [x, VF] } fun t =>
        (x ≠ VF → (t.reg x).toNat = a.toNat / 2) ∧ (t.reg VF).toNat = a.toNat % 2 ∧ t.pc = s.pc + 2#16)

/-- `8xyE` writes the source doubled mod 256, then the bit shifted out to `VF` (R150, D6: stated for both values). -/
def Obligations.ShiftLeft : Prop :=
  ∀ (s : State) (x y : Reg) (a : Byte), Encoded (.shlVxVy x y) 0xF00F#16 0x800E#16 ∧
    ((s.params.shiftSource = .x ∧ a = s.reg x) ∨ (s.params.shiftSource = .y ∧ a = s.reg y) →
      Completes (.shlVxVy x y) s { regs := [x, VF] } fun t =>
        (x ≠ VF → (t.reg x).toNat = 2 * a.toNat % 256) ∧ (t.reg VF).toNat = a.toNat / 128 ∧ t.pc = s.pc + 2#16)

/-- R151: `Annn` sets `I` to the zero-extended address. -/
def Obligations.LoadIndex : Prop :=
  ∀ (s : State) (nnn : Addr), Encoded (.ldIAddr nnn) 0xF000#16 0xA000#16 ∧
    Completes (.ldIAddr nnn) s { index := true } fun t => t.I.toNat = nnn.toNat ∧ t.pc = s.pc + 2#16

/-- R153: `Fx1E` adds `V[x]` to `I` mod 2^16; no flag, even on overflow. -/
def Obligations.AddToIndex : Prop :=
  ∀ (s : State) (x : Reg), Encoded (.addIVx x) 0xF0FF#16 0xF01E#16 ∧
    Completes (.addIVx x) s { index := true } fun t =>
      t.I.toNat = (s.I.toNat + (s.reg x).toNat) % 65536 ∧ t.pc = s.pc + 2#16

/-- `Cxnn` loads the step's random byte masked, whatever that byte is (R152, the spec's own D24: a draw). -/
def Obligations.RandomMasked : Prop :=
  ∀ (s : State) (x : Reg) (nn rnd : Byte), Encoded (.rndVxByte x nn) 0xF000#16 0xC000#16 ∧
    (s.inputs.rnd = rnd → Completes (.rndVxByte x nn) s { regs := [x] } fun t =>
      t.pc = s.pc + 2#16 ∧ ∀ k, (t.reg x).getLsbD k = (rnd.getLsbD k && nn.getLsbD k))

/-! ## Display (43_display.md) -/

/-- R170: `00E0` turns every pixel off; `VF` is not written. -/
def Obligations.ClearDisplay : Prop :=
  Encoded .cls 0xFFFF#16 0x00E0#16 ∧
  ∀ s : State, Completes .cls s { display := true } fun t =>
    t.pc = s.pc + 2#16 ∧ ∀ row col, row < 32 → col < 64 → t.display.pixel row col = false

/-- A draw in range XORs each grid pixel with its sprite bit, and no other; `VF` is 1 exactly when a pixel went from on
to off. This is the loop of R171 against the boundary policy of R172; the range check and the unwrapped coordinates are
the spec's own D9 and D18. -/
def Obligations.DrawXorsGridPixels : Prop :=
  ∀ (s : State) (x y : Reg) (z : Nibble), Encoded (.drwVxVyNibble x y z) 0xF000#16 0xD000#16 ∧
    (¬(0 < z.toNat ∧ 4096 ≤ s.I.toNat + z.toNat - 1) →
      Completes (.drwVxVyNibble x y z) s { regs := [VF], display := true } fun t => t.pc = s.pc + 2#16 ∧
        (∀ row col, row < 32 → col < 64 → t.display.pixel row col =
          (s.display.pixel row col ^^ s.spriteBit (s.reg x).toNat (s.reg y).toNat z.toNat row col)) ∧
        (t.reg VF = 0#8 ∨ t.reg VF = 1#8) ∧
        (t.reg VF = 1#8 ↔ ∃ row col, row < 32 ∧ col < 64 ∧ s.display.pixel row col = true ∧
          t.display.pixel row col = false))

/-- The same draw twice restores the display, and if the sprite has a set bit on the grid one of the two draws reports a
collision (R171's corner case, D9 and D18; log entry 9 for its flag). -/
def Obligations.DrawTwiceRestores : Prop :=
  ∀ (s t : State) (x y : Reg) (z : Nibble), x ≠ VF → y ≠ VF →
    ¬(0 < z.toNat ∧ 4096 ≤ s.I.toNat + z.toNat - 1) → exec (.drwVxVyNibble x y z) s = .next t →
    ∃ u, exec (.drwVxVyNibble x y z) t = .next u ∧ u.display = s.display ∧
      ((∃ row col, row < 32 ∧ col < 64 ∧ s.spriteBit (s.reg x).toNat (s.reg y).toNat z.toNat row col = true) →
        t.reg VF = 1#8 ∨ u.reg VF = 1#8)

/-! ## Timers, keys, font, BCD and block transfer (44_memory_timer_input.md) -/

/-- `Fx07` reads `DT`, `Fx15` writes `DT` and `Fx18` writes `ST` (R190, R194, R195; which is which is the spec's general
knowledge). -/
def Obligations.TimerCopies : Prop :=
  ∀ (s : State) (x : Reg),
    Encoded (.ldVxDT x) 0xF0FF#16 0xF007#16 ∧ Encoded (.ldDTVx x) 0xF0FF#16 0xF015#16 ∧
    Encoded (.ldSTVx x) 0xF0FF#16 0xF018#16 ∧
    (Completes (.ldVxDT x) s { regs := [x] } fun t => t.reg x = s.DT ∧ t.pc = s.pc + 2#16) ∧
    (Completes (.ldDTVx x) s { delay := true } fun t => t.DT = s.reg x ∧ t.pc = s.pc + 2#16) ∧
    (Completes (.ldSTVx x) s { sound := true } fun t => t.ST = s.reg x ∧ t.pc = s.pc + 2#16)

/-- `Fx0A` suspends: the status awaits a key for `x`, `pc` stays, and no register is written yet (R191, D15). -/
def Obligations.KeyWaitSuspends : Prop :=
  ∀ (s : State) (x : Reg), Encoded (.ldVxK x) 0xF0FF#16 0xF00A#16 ∧
    Completes (.ldVxK x) s { status := true } fun t => t.status = .awaitingKey x ∧ t.pc = s.pc

/-- `Fx29` points `I` at the glyph of the low nibble, below 0x200 whatever `FONT_BASE` is (R196, D13). -/
def Obligations.GlyphAddress : Prop :=
  ∀ (s : State) (x : Reg), Encoded (.ldFVx x) 0xF0FF#16 0xF029#16 ∧
    Completes (.ldFVx x) s { index := true } fun t =>
      t.I.toNat = s.params.fontBase.val + 5 * ((s.reg x).toNat % 16) ∧ t.I.toNat < 0x200 ∧ t.pc = s.pc + 2#16

/-- `Fx33` in range stores the three decimal digits at `I`, `I + 1` and `I + 2` and changes no other byte (R197, D9). The
stored values are read back under the canonical form of memory, which every step keeps. -/
def Obligations.StoreDecimalDigits : Prop :=
  ∀ (s : State) (x : Reg), Encoded (.ldBVx x) 0xF0FF#16 0xF033#16 ∧
    (s.I.toNat + 2 < 4096 → Completes (.ldBVx x) s { base := s.I.toNat, len := 3 } fun t => t.pc = s.pc + 2#16 ∧
      (s.mem.wf = true →
        (t.mem.read s.I.toNat).toNat = (s.reg x).toNat / 100 ∧
        (t.mem.read (s.I.toNat + 1)).toNat = (s.reg x).toNat / 10 % 10 ∧
        (t.mem.read (s.I.toNat + 2)).toNat = (s.reg x).toNat % 10))

/-- `Fx55` in range stores `V[0]` to `V[x]` at `I` on, changes no other byte and keeps `I` (R198, D9). -/
def Obligations.StoreRegisters : Prop :=
  ∀ (s : State) (x : Reg), Encoded (.ldMemIVx x) 0xF0FF#16 0xF055#16 ∧
    (s.I.toNat + x.val < 4096 →
      Completes (.ldMemIVx x) s { base := s.I.toNat, len := x.val + 1 } fun t => t.pc = s.pc + 2#16 ∧
        (s.mem.wf = true → ∀ r : Reg, r ≤ x → t.mem.read (s.I.toNat + r.val) = s.reg r))

/-- `Fx65` in range loads `V[0]` to `V[x]` from `I` on, and changes no other register and no memory (R199, D9). -/
def Obligations.LoadRegisters : Prop :=
  ∀ (s : State) (x : Reg), Encoded (.ldVxMemI x) 0xF0FF#16 0xF065#16 ∧
    (s.I.toNat + x.val < 4096 →
      Completes (.ldVxMemI x) s { regs := (List.finRange 16).filter (· ≤ x) } fun t => t.pc = s.pc + 2#16 ∧
        ∀ r : Reg, r ≤ x → t.reg r = s.mem.read (s.I.toNat + r.val))

/-- `Fx55` and then `Fx65`, with the same `x`, the same `I` and the same memory, give back `V[0]` to `V[x]`, whatever the
registers held in between (R199's corner case, D9). -/
def Obligations.StoreThenLoadRegisters : Prop :=
  ∀ (s t u : State) (x : Reg), s.mem.wf = true → s.I.toNat + x.val < 4096 → exec (.ldMemIVx x) s = .next t →
    u.mem = t.mem → u.I = t.I → ∃ v, exec (.ldVxMemI x) u = .next v ∧ ∀ r : Reg, r ≤ x → v.reg r = s.reg r

/-- A data access past the end of memory takes MemoryOutOfBounds, with `I` and the byte count in the record, before any
effect (the spec's own D9 and D23). -/
def Obligations.DataAccessPastMemoryFaults : Prop :=
  ∀ (s : State) (x y : Reg) (z : Nibble),
    (0 < z.toNat ∧ 4096 ≤ s.I.toNat + z.toNat - 1 → exec (.drwVxVyNibble x y z) s = .next { s with
      status := .faulted ⟨.memoryOutOfBounds, s.pc, some (encode (.drwVxVyNibble x y z)), some ⟨s.I, z.toNat⟩⟩ }) ∧
    (4096 ≤ s.I.toNat + 2 → exec (.ldBVx x) s = .next { s with
      status := .faulted ⟨.memoryOutOfBounds, s.pc, some (encode (.ldBVx x)), some ⟨s.I, 3⟩⟩ }) ∧
    (4096 ≤ s.I.toNat + x.val → exec (.ldMemIVx x) s = .next { s with
      status := .faulted ⟨.memoryOutOfBounds, s.pc, some (encode (.ldMemIVx x)), some ⟨s.I, x.val + 1⟩⟩ }) ∧
    (4096 ≤ s.I.toNat + x.val → exec (.ldVxMemI x) s = .next { s with
      status := .faulted ⟨.memoryOutOfBounds, s.pc, some (encode (.ldVxMemI x)), some ⟨s.I, x.val + 1⟩⟩ })

/-- `Ex9E` skips if the key `V[x]` is held and `ExA1` if it is not; for a value above 0xF the answer is the step's draw,
whatever it is (R200 to R202, the spec's own D17). -/
def Obligations.KeySkips : Prop :=
  ∀ (s : State) (x : Reg) (answer : Bool),
    Encoded (.skpVx x) 0xF0FF#16 0xE09E#16 ∧ Encoded (.sknpVx x) 0xF0FF#16 0xE0A1#16 ∧
    (((s.reg x).toNat ≤ 0xF ∧ answer = s.inputs.held.getLsbD (s.reg x).toNat) ∨
        (0xF < (s.reg x).toNat ∧ answer = s.inputs.heldOor) →
      (Completes (.skpVx x) s {} fun t => t.pc = if answer = true then s.pc + 4#16 else s.pc + 2#16) ∧
      (Completes (.sknpVx x) s {} fun t => t.pc = if answer = true then s.pc + 2#16 else s.pc + 4#16))

/-! ## The whole machine -/

/-- Every transition keeps the invariant: memory canonical, at most 16 return addresses, `pc` at most 0x10FE (R111), a
waiting core at its `Fx0A`, a fault record that describes its state. The invariant's form is the model's (log entry 6 for
memory). -/
def Obligations.StepKeepsInvariant : Prop :=
  ∀ s t : State, s.Inv → step s = .next t → t.Inv

/-- The state after reset meets the invariant. -/
def Obligations.ResetMeetsInvariant : Prop := State.reset.Inv

/-- No instruction writes outside what the spec names as its writes: 10_state.md's list of writers of each register, the
flag writers of R33, and the memory writers of 20_memory.md R59. A faulting instruction writes the status alone. The
data faults and the kept `VF` of the logic instructions are the spec's own D9 and D7. -/
def Obligations.InstructionsWriteOnlyTheirOwn : Prop :=
  ∀ (s t : State) (i : Instr), exec i s = .next t →
    (¬FaultsIn s i → Keeps (writesOf s i) s t) ∧ (FaultsIn s i → t.pc = s.pc ∧ Keeps { status := true } s t)

/-- Only `Cxnn`, `Ex9E` and `ExA1` read a step's inputs: any other instruction gives the same result whatever they are.
No instruction reads `ST`: the result is the same whatever it holds, with `ST` kept, or, by `Fx18`, overwritten (R28,
R101). -/
def Obligations.InputsAndSoundTimerAreUnread : Prop :=
  ∀ (s t : State) (i : Instr) (inputs : Inputs) (v : Byte), exec i s = .next t →
    ((∀ x nn, i ≠ .rndVxByte x nn) → (∀ x, i ≠ .skpVx x) → (∀ x, i ≠ .sknpVx x) →
      exec i { s with inputs := inputs } = .next { t with inputs := inputs }) ∧
    ((∀ x, i ≠ .ldSTVx x) → exec i { s with ST := v } = .next { t with ST := v }) ∧
    (∀ x, i = .ldSTVx x → exec i { s with ST := v } = .next t)

/-! ## Reset (70_reset_and_hazards.md) -/

/-- R35, R36 and R38: every constructed state has its registers zero, `pc` at 0x200, the timers zero, the stack empty and
every pixel off; and so has the model's reset state. -/
def Obligations.ConstructedRegisters : Prop :=
  ∀ s : State, (s = State.reset ∨ ∃ image font params schedule, construct image font params schedule = some s) →
    (∀ r, s.reg r = 0#8) ∧ s.pc = 0x200#16 ∧ s.DT = 0#8 ∧ s.ST = 0#8 ∧ s.stack = [] ∧
    ∀ row col, row < 32 → col < 64 → s.display.pixel row col = false

/-- R40: memory at construction holds the image from 0x200, the font data at `FONT_BASE` and 0 everywhere else. -/
def Obligations.ConstructedMemory : Prop :=
  ∀ (image font : List Byte) (params : Params) (schedule : List Transition) (s : State),
    construct image font params schedule = some s → ∀ a, s.mem.read a =
      if 0x200 ≤ a ∧ a < 0x200 + image.length then image.getD (a - 0x200) 0#8
      else if params.fontBase.val ≤ a ∧ a < params.fontBase.val + 80 then font.getD (a - params.fontBase.val) 0#8
      else 0#8

/-- `Construct` sets `I` to 0, the status to Running and the variant to Base (the spec's own D22), takes every image of
at most 3584 bytes with a font table of 80 bytes, and refuses a longer image (D21). -/
def Obligations.ConstructAcceptsOrRefuses : Prop :=
  ∀ (image font : List Byte) (params : Params) (schedule : List Transition),
    (image.length ≤ 3584 → font.length = 80 → ∃ s, construct image font params schedule = some s ∧
      s.I = 0#16 ∧ s.status = .running ∧ s.variant = .base ∧ s.params = params ∧ s.schedule = schedule) ∧
    (3584 < image.length → construct image font params schedule = none)
end

