-- ==== Sys2Proof/Laws/Decode.lean ====
section
/-! SUPPORT. The numeric value of every field and of every assembled word (30_encoding.md R71), so that a claim about
encodings is arithmetic. -/

namespace Sys2Proof

/-- The value of a concatenation. -/
theorem toNat_concat {m n : Nat} (a : BitVec m) (b : BitVec n) : (a ++ b).toNat = a.toNat * 2 ^ n + b.toNat := by
  rw [BitVec.toNat_append, ← Nat.shiftLeft_add_eq_or_of_lt b.isLt, Nat.shiftLeft_eq]

theorem toNat_wordOfBytes (hi lo : Byte) : (wordOfBytes hi lo).toNat = hi.toNat * 256 + lo.toNat := toNat_concat hi lo
theorem toNat_nibbleOfReg (r : Reg) : (nibbleOfReg r).toNat = r.val := rfl
theorem toNat_wordOfNNN (w : Nibble) (n : Addr) : (wordOfNNN w n).toNat = w.toNat * 4096 + n.toNat := toNat_concat w n
theorem toNat_wordOfXNN (w : Nibble) (x : Reg) (n : Byte) :
    (wordOfXNN w x n).toNat = w.toNat * 4096 + x.val * 256 + n.toNat := by
  refine (toNat_concat (w ++ nibbleOfReg x) n).trans ?_
  rw [toNat_concat, toNat_nibbleOfReg]
  omega
theorem toNat_wordOfXYZ (w : Nibble) (x y : Reg) (z : Nibble) :
    (wordOfXYZ w x y z).toNat = w.toNat * 4096 + x.val * 256 + y.val * 16 + z.toNat := by
  refine (toNat_concat ((w ++ nibbleOfReg x) ++ nibbleOfReg y) z).trans ?_
  rw [toNat_concat, toNat_concat, toNat_nibbleOfReg, toNat_nibbleOfReg]
  omega
theorem toNat_fieldW (w : Word) : (fieldW w).toNat = w.toNat / 4096 := by
  have := w.isLt
  simp only [fieldW, BitVec.extractLsb'_toNat, Nat.shiftRight_eq_div_pow]
  omega
theorem toNat_fieldX (w : Word) : (fieldX w).toNat = w.toNat / 256 % 16 := by
  simp only [fieldX, BitVec.extractLsb'_toNat, Nat.shiftRight_eq_div_pow]
theorem toNat_fieldY (w : Word) : (fieldY w).toNat = w.toNat / 16 % 16 := by
  simp only [fieldY, BitVec.extractLsb'_toNat, Nat.shiftRight_eq_div_pow]
theorem toNat_fieldZ (w : Word) : (fieldZ w).toNat = w.toNat % 16 := by
  simp [fieldZ, BitVec.extractLsb'_toNat]
theorem toNat_fieldNN (w : Word) : (fieldNN w).toNat = w.toNat % 256 := by
  simp [fieldNN, BitVec.extractLsb'_toNat]
theorem toNat_fieldNNN (w : Word) : (fieldNNN w).toNat = w.toNat % 4096 := by
  simp [fieldNNN, BitVec.extractLsb'_toNat]
theorem toNat_hiByte (w : Word) : (hiByte w).toNat = w.toNat / 256 := by
  have := w.isLt
  simp only [hiByte, BitVec.extractLsb'_toNat, Nat.shiftRight_eq_div_pow]; omega
theorem toNat_loByte (w : Word) : (loByte w).toNat = w.toNat % 256 := by
  simp [loByte, BitVec.extractLsb'_toNat]
theorem val_regOfNibble (n : Nibble) : (regOfNibble n).val = n.toNat := rfl

/-- The two bytes of a word, put together again (R56, R71). -/
theorem wordOfBytes_hi_lo (w : Word) : wordOfBytes (hiByte w) (loByte w) = w := by
  apply BitVec.eq_of_toNat_eq
  rw [toNat_wordOfBytes, toNat_hiByte, toNat_loByte]
  omega

/-- A word of `w x nn`, read back into its fields. -/
theorem wordOfXNN_fields (w : Word) : wordOfXNN (fieldW w) (regOfNibble (fieldX w)) (fieldNN w) = w := by
  apply BitVec.eq_of_toNat_eq
  rw [toNat_wordOfXNN, toNat_fieldW, val_regOfNibble, toNat_fieldX, toNat_fieldNN]
  omega

/-- A word of four nibbles, read back into its fields. -/
theorem wordOfXYZ_fields (w : Word) :
    wordOfXYZ (fieldW w) (regOfNibble (fieldX w)) (regOfNibble (fieldY w)) (fieldZ w) = w := by
  apply BitVec.eq_of_toNat_eq
  rw [toNat_wordOfXYZ, toNat_fieldW, val_regOfNibble, val_regOfNibble, toNat_fieldX, toNat_fieldY, toNat_fieldZ]
  omega

/-- A word of `w nnn`, read back into its fields. -/
theorem wordOfNNN_fields (w : Word) : wordOfNNN (fieldW w) (fieldNNN w) = w := by
  apply BitVec.eq_of_toNat_eq
  rw [toNat_wordOfNNN, toNat_fieldW, toNat_fieldNNN]
  omega

/-! ## What the decoder can answer, group by group -/

theorem decodeGroup0_instr (word : Word) (i : Instr) (h : decodeGroup0 word = .instr i) :
    (word = 0x00E0#16 ∧ i = .cls) ∨ (word = 0x00EE#16 ∧ i = .ret) := by
  unfold decodeGroup0 at h
  split_ifs at h <;> simp_all

theorem decodeGroup0_unknown (word : Word) :
    (∃ why, decodeGroup0 word = .unknown why) ↔ word ≠ 0x00E0#16 ∧ word ≠ 0x00EE#16 := by
  unfold decodeGroup0
  split_ifs <;> simp_all

theorem decodeGroup8_instr (x y : Reg) (z : Nibble) (i : Instr) (h : decodeGroup8 x y z = .instr i) :
    (z = 0x0#4 ∧ i = .ldVxVy x y) ∨ (z = 0x1#4 ∧ i = .orVxVy x y) ∨ (z = 0x2#4 ∧ i = .andVxVy x y) ∨
    (z = 0x3#4 ∧ i = .xorVxVy x y) ∨ (z = 0x4#4 ∧ i = .addVxVy x y) ∨ (z = 0x5#4 ∧ i = .subVxVy x y) ∨
    (z = 0x6#4 ∧ i = .shrVxVy x y) ∨ (z = 0x7#4 ∧ i = .subnVxVy x y) ∨ (z = 0xE#4 ∧ i = .shlVxVy x y) := by
  unfold decodeGroup8 at h
  split_ifs at h <;> simp_all

theorem decodeGroup8_unknown (x y : Reg) (z : Nibble) :
    (∃ why, decodeGroup8 x y z = .unknown why) ↔ 8 ≤ z.toNat ∧ z.toNat ≠ 0xE := by
  revert z
  unfold decodeGroup8
  intro z
  have hz := z.isLt
  split_ifs <;> simp_all
  all_goals bv_omega

theorem decodeGroupE_instr (x : Reg) (nn : Byte) (i : Instr) (h : decodeGroupE x nn = .instr i) :
    (nn = 0x9E#8 ∧ i = .skpVx x) ∨ (nn = 0xA1#8 ∧ i = .sknpVx x) := by
  unfold decodeGroupE at h
  split_ifs at h <;> simp_all

theorem decodeGroupE_unknown (x : Reg) (nn : Byte) :
    (∃ why, decodeGroupE x nn = .unknown why) ↔ nn ≠ 0x9E#8 ∧ nn ≠ 0xA1#8 := by
  unfold decodeGroupE
  split_ifs <;> simp_all

theorem decodeGroupF_instr (x : Reg) (nn : Byte) (i : Instr) (h : decodeGroupF x nn = .instr i) :
    (nn = 0x07#8 ∧ i = .ldVxDT x) ∨ (nn = 0x0A#8 ∧ i = .ldVxK x) ∨ (nn = 0x15#8 ∧ i = .ldDTVx x) ∨
    (nn = 0x18#8 ∧ i = .ldSTVx x) ∨ (nn = 0x1E#8 ∧ i = .addIVx x) ∨ (nn = 0x29#8 ∧ i = .ldFVx x) ∨
    (nn = 0x33#8 ∧ i = .ldBVx x) ∨ (nn = 0x55#8 ∧ i = .ldMemIVx x) ∨ (nn = 0x65#8 ∧ i = .ldVxMemI x) := by
  unfold decodeGroupF at h
  split_ifs at h <;> simp_all

theorem decodeGroupF_unknown (x : Reg) (nn : Byte) :
    (∃ why, decodeGroupF x nn = .unknown why) ↔
      nn ∉ [0x07#8, 0x0A#8, 0x15#8, 0x18#8, 0x1E#8, 0x29#8, 0x33#8, 0x55#8, 0x65#8] := by
  unfold decodeGroupF
  split_ifs <;> simp_all

/-- The dispatch on `w` (R74): which group an instruction word belongs to, and what its group then says. -/
theorem decodeWord_instr (word : Word) (i : Instr) (h : decodeWord word = .instr i) :
    (fieldW word = 0x0#4 ∧ decodeGroup0 word = .instr i) ∨
    (fieldW word = 0x1#4 ∧ i = .jpAddr (fieldNNN word)) ∨
    (fieldW word = 0x2#4 ∧ i = .callAddr (fieldNNN word)) ∨
    (fieldW word = 0x3#4 ∧ i = .seVxByte (regOfNibble (fieldX word)) (fieldNN word)) ∨
    (fieldW word = 0x4#4 ∧ i = .sneVxByte (regOfNibble (fieldX word)) (fieldNN word)) ∨
    (fieldW word = 0x5#4 ∧ fieldZ word = 0#4 ∧ i = .seVxVy (regOfNibble (fieldX word)) (regOfNibble (fieldY word))) ∨
    (fieldW word = 0x6#4 ∧ i = .ldVxByte (regOfNibble (fieldX word)) (fieldNN word)) ∨
    (fieldW word = 0x7#4 ∧ i = .addVxByte (regOfNibble (fieldX word)) (fieldNN word)) ∨
    (fieldW word = 0x8#4 ∧
      decodeGroup8 (regOfNibble (fieldX word)) (regOfNibble (fieldY word)) (fieldZ word) = .instr i) ∨
    (fieldW word = 0x9#4 ∧ fieldZ word = 0#4 ∧ i = .sneVxVy (regOfNibble (fieldX word)) (regOfNibble (fieldY word))) ∨
    (fieldW word = 0xA#4 ∧ i = .ldIAddr (fieldNNN word)) ∨
    (fieldW word = 0xB#4 ∧ i = .jpV0Addr (fieldNNN word)) ∨
    (fieldW word = 0xC#4 ∧ i = .rndVxByte (regOfNibble (fieldX word)) (fieldNN word)) ∨
    (fieldW word = 0xD#4 ∧
      i = .drwVxVyNibble (regOfNibble (fieldX word)) (regOfNibble (fieldY word)) (fieldZ word)) ∨
    (fieldW word = 0xE#4 ∧ decodeGroupE (regOfNibble (fieldX word)) (fieldNN word) = .instr i) ∨
    (fieldW word = 0xF#4 ∧ decodeGroupF (regOfNibble (fieldX word)) (fieldNN word) = .instr i) := by
  have hF : (fieldW word).toNat < 16 := (fieldW word).isLt
  have all : fieldW word = 0x0#4 ∨ fieldW word = 0x1#4 ∨ fieldW word = 0x2#4 ∨ fieldW word = 0x3#4 ∨
      fieldW word = 0x4#4 ∨ fieldW word = 0x5#4 ∨ fieldW word = 0x6#4 ∨ fieldW word = 0x7#4 ∨ fieldW word = 0x8#4 ∨
      fieldW word = 0x9#4 ∨ fieldW word = 0xA#4 ∨ fieldW word = 0xB#4 ∨ fieldW word = 0xC#4 ∨ fieldW word = 0xD#4 ∨
      fieldW word = 0xE#4 ∨ fieldW word = 0xF#4 := by
    bv_omega
  unfold decodeWord at h
  generalize fieldW word = w at h all ⊢
  dsimp only at h
  rcases all with rfl | rfl | rfl | rfl | rfl | rfl | rfl | rfl | rfl | rfl | rfl | rfl | rfl | rfl | rfl | rfl <;>
    simp only [reduceIte, BitVec.reduceEq, Decoded.instr.injEq] at h <;>
    simp only [BitVec.reduceEq, false_and, true_and, false_or, or_false] <;>
    first
    | exact h
    | exact h.symm
    | (split at h
       · exact ⟨‹_›, (Decoded.instr.inj h).symm⟩
       · cases h)

end Sys2Proof
end

