-- ==== Sys2Proof/Laws/Display.lean ====
section
/-! SUPPORT. What drawing does to one pixel and to the collision flag (43_display.md R171). -/

namespace Sys2Proof.Machine

/-- Off the grid a pixel reads as off. -/
theorem pixel_off_grid (d : Display) (r c : Nat) (h : ¬(r < 32 ∧ c < 64)) : d.pixel r c = false := by
  simp [Display.pixel, h]

@[simp] theorem pixel_clear (d : Display) (r c : Nat) : d.clear.pixel r c = false := by
  simp [Display.pixel, Display.clear]

/-- Two displays with the same pixels are the same. -/
theorem display_ext (d d' : Display) (h : ∀ r c, r < 32 → c < 64 → d.pixel r c = d'.pixel r c) : d = d' := by
  apply Vector.ext
  intro r hr
  apply Vector.ext
  intro c hc
  simpa [Display.pixel, hr, hc] using h r c hr hc

/-- One pixel after one set sprite bit: flipped at its place on the grid, unchanged elsewhere. -/
theorem pixel_drawPixel (acc : Display × Bool) (row col r c : Nat) :
    (drawPixel acc row col).1.pixel r c =
      (acc.1.pixel r c ^^ decide (r = row ∧ c = col ∧ row < 32 ∧ col < 64)) := by
  unfold drawPixel
  by_cases h : row < 32 ∧ col < 64
  · rw [dif_pos h]
    by_cases hg : r < 32 ∧ c < 64
    · by_cases hr : row = r
      · subst hr
        by_cases hc : col = c
        · subst hc
          simp [Display.pixel, h]
        · simp [Display.pixel, h, hg.2, hc, Ne.symm hc]
      · simp [Display.pixel, hg, hr, Ne.symm hr]
    · rw [pixel_off_grid _ r c hg, pixel_off_grid _ r c hg]
      simp only [Bool.false_bne, Bool.false_eq, decide_eq_false_iff_not]
      rintro ⟨rfl, rfl, h1, h2⟩
      exact hg ⟨h1, h2⟩
  · rw [dif_neg h]
    rw [decide_eq_false (show ¬(r = row ∧ c = col ∧ row < 32 ∧ col < 64) from fun e => h e.2.2), Bool.xor_false]

/-- The flag after one set sprite bit. -/
theorem hit_drawPixel (acc : Display × Bool) (row col : Nat) :
    (drawPixel acc row col).2 = (acc.2 || acc.1.pixel row col) := by
  unfold drawPixel Display.pixel
  by_cases h : row < 32 ∧ col < 64
  · simp [h]
  · simp [h]

/-- The first `n` pixels of one sprite byte. -/
def drawBits (acc : Display × Bool) (row cx : Nat) (b : Byte) (n : Nat) : Display × Bool :=
  (List.range n).foldl (fun acc c => if b.getLsbD (7 - c) then drawPixel acc row (cx + c) else acc) acc

theorem drawBits_succ (acc : Display × Bool) (row cx : Nat) (b : Byte) (n : Nat) :
    drawBits acc row cx b (n + 1) =
      if b.getLsbD (7 - n) then drawPixel (drawBits acc row cx b n) row (cx + n) else drawBits acc row cx b n := by
  simp [drawBits, List.range_succ]

theorem pixel_drawBits (acc : Display × Bool) (row cx : Nat) (b : Byte) (n r c : Nat) :
    (drawBits acc row cx b n).1.pixel r c =
      (acc.1.pixel r c ^^ decide (r = row ∧ cx ≤ c ∧ c < cx + n ∧ b.getLsbD (7 - (c - cx)) = true ∧ r < 32 ∧ c < 64)) := by
  induction n with
  | zero =>
    rw [decide_eq_false (by omega)]
    simp [drawBits]
  | succ n ih =>
    rw [drawBits_succ]
    by_cases hc : c = cx + n
    · subst hc
      have e : cx + n - cx = n := by omega
      rw [decide_eq_false (by omega), Bool.xor_false] at ih
      split
      · rename_i hb
        rw [pixel_drawPixel, ih, e]
        congr 1
        rw [decide_eq_decide]
        constructor
        · rintro ⟨hr, -, h1, h2⟩
          exact ⟨hr, by omega, by omega, hb, by omega, h2⟩
        · rintro ⟨hr, -, -, -, h1, h2⟩
          exact ⟨hr, rfl, by omega, h2⟩
      · rename_i hb
        rw [ih, e, decide_eq_false (fun h => hb h.2.2.2.1), Bool.xor_false]
    · have e : (r = row ∧ cx ≤ c ∧ c < cx + (n + 1) ∧ b.getLsbD (7 - (c - cx)) = true ∧ r < 32 ∧ c < 64) ↔
          (r = row ∧ cx ≤ c ∧ c < cx + n ∧ b.getLsbD (7 - (c - cx)) = true ∧ r < 32 ∧ c < 64) := by
        constructor <;> rintro ⟨h1, h2, h3, h4⟩ <;> exact ⟨h1, h2, by omega, h4⟩
      rw [decide_eq_decide.2 e]
      split
      · rw [pixel_drawPixel, ih, decide_eq_false (show ¬(r = row ∧ c = cx + n ∧ row < 32 ∧ cx + n < 64) from
          fun h => hc h.2.1), Bool.xor_false]
      · exact ih

theorem hit_drawBits (acc : Display × Bool) (row cx : Nat) (b : Byte) (n : Nat) :
    (drawBits acc row cx b n).2 = true ↔
      acc.2 = true ∨ ∃ k, k < n ∧ b.getLsbD (7 - k) = true ∧ acc.1.pixel row (cx + k) = true := by
  induction n with
  | zero => simp [drawBits]
  | succ n ih =>
    have keep : (drawBits acc row cx b n).1.pixel row (cx + n) = acc.1.pixel row (cx + n) := by
      rw [pixel_drawBits, decide_eq_false (by omega), Bool.xor_false]
    rw [drawBits_succ]
    split
    · rename_i hb
      rw [hit_drawPixel, keep, Bool.or_eq_true, ih]
      constructor
      · rintro ((h | ⟨k, hk, h⟩) | h)
        · exact .inl h
        · exact .inr ⟨k, by omega, h⟩
        · exact .inr ⟨n, by omega, hb, h⟩
      · rintro (h | ⟨k, hk, h1, h2⟩)
        · exact .inl (.inl h)
        · by_cases e : k = n
          · subst e; exact .inr h2
          · exact .inl (.inr ⟨k, by omega, h1, h2⟩)
    · rename_i hb
      rw [ih]
      constructor
      · rintro (h | ⟨k, hk, h⟩)
        · exact .inl h
        · exact .inr ⟨k, by omega, h⟩
      · rintro (h | ⟨k, hk, h1, h2⟩)
        · exact .inl h
        · by_cases e : k = n
          · subst e; exact absurd h1 hb
          · exact .inr ⟨k, by omega, h1, h2⟩

/-- The sprite bit of a list of bytes at a pixel, the first byte on row `row`: 0 where no byte covers the pixel. -/
def bytesBit (bs : List Byte) (row cx r c : Nat) : Bool :=
  decide (row ≤ r ∧ cx ≤ c ∧ c < cx + 8) && (bs[r - row]?.getD 0#8).getLsbD (7 - (c - cx))

@[simp] theorem bytesBit_nil (row cx r c : Nat) : bytesBit [] row cx r c = false := by
  simp [bytesBit]

theorem bytesBit_cons (b : Byte) (bs : List Byte) (row cx r c : Nat) :
    bytesBit (b :: bs) row cx r c =
      if r = row then decide (cx ≤ c ∧ c < cx + 8) && b.getLsbD (7 - (c - cx)) else bytesBit bs (row + 1) cx r c := by
  unfold bytesBit
  split
  · rename_i h
    subst h
    simp
  · rename_i h
    by_cases h1 : row + 1 ≤ r
    · obtain ⟨d, rfl⟩ : ∃ d, r = row + 1 + d := ⟨r - (row + 1), by omega⟩
      have e1 : row + 1 + d - row = d + 1 := by omega
      have e2 : row + 1 + d - (row + 1) = d := by omega
      rw [e1, e2, List.getElem?_cons_succ]
      congr 1
      simp only [decide_eq_decide]
      omega
    · rw [decide_eq_false (by omega), decide_eq_false (by omega)]
      rfl

theorem drawByte_eq (acc : Display × Bool) (row cx : Nat) (b : Byte) : drawByte acc row cx b = drawBits acc row cx b 8 := rfl

/-- The display after a draw: each on-grid pixel is XORed with its sprite bit (R171, R172). -/
theorem pixel_drawRows (bs : List Byte) (row cx : Nat) (acc : Display × Bool) (r c : Nat) (hr : r < 32) (hc : c < 64) :
    (drawRows bs row cx acc).1.pixel r c = (acc.1.pixel r c ^^ bytesBit bs row cx r c) := by
  induction bs generalizing row acc with
  | nil => simp [drawRows]
  | cons b bs ih =>
    rw [drawRows, ih, drawByte_eq, pixel_drawBits, bytesBit_cons]
    by_cases h : r = row
    · subst h
      have e : bytesBit bs (r + 1) cx r c = false := by simp [bytesBit]
      rw [e, Bool.xor_false]
      simp [hr, hc, Bool.decide_and, Bool.and_assoc]
    · simp [h]

/-- The collision flag of a draw: some on-grid pixel was on and its sprite bit is set (R171). -/
theorem hit_drawRows (bs : List Byte) (row cx : Nat) (acc : Display × Bool) :
    (drawRows bs row cx acc).2 = true ↔
      acc.2 = true ∨ ∃ r c, r < 32 ∧ c < 64 ∧ acc.1.pixel r c = true ∧ bytesBit bs row cx r c = true := by
  induction bs generalizing row acc with
  | nil => simp [drawRows]
  | cons b bs ih =>
    rw [drawRows, ih, drawByte_eq, hit_drawBits]
    constructor
    · rintro ((h | ⟨k, hk, hb, hp⟩) | ⟨r, c, hr, hc, hp, hs⟩)
      · exact .inl h
      · refine .inr ⟨row, cx + k, ?_⟩
        by_cases hg : row < 32 ∧ cx + k < 64
        · refine ⟨hg.1, hg.2, hp, ?_⟩
          rw [bytesBit_cons, if_pos rfl]
          simp [hk, hb]
        · rw [pixel_off_grid _ _ _ hg] at hp
          cases hp
      · refine .inr ⟨r, c, hr, hc, ?_⟩
        have hne : r ≠ row := by
          rintro rfl
          simp [bytesBit] at hs
        rw [pixel_drawBits, decide_eq_false (fun h => hne h.1), Bool.xor_false] at hp
        rw [bytesBit_cons, if_neg hne]
        exact ⟨hp, hs⟩
    · rintro (h | ⟨r, c, hr, hc, hp, hs⟩)
      · exact .inl (.inl h)
      · rw [bytesBit_cons] at hs
        split at hs
        · rename_i he
          subst he
          simp only [Bool.and_eq_true, decide_eq_true_eq] at hs
          refine .inl (.inr ⟨c - cx, by omega, hs.2, ?_⟩)
          rw [show cx + (c - cx) = c by omega]
          exact hp
        · rename_i hne
          refine .inr ⟨r, c, hr, hc, ?_, hs⟩
          rw [pixel_drawBits, decide_eq_false (fun h => hne h.1), Bool.xor_false]
          exact hp

end Sys2Proof.Machine
end

