-- ==== Sys2Proof/Laws/Memory.lean ====
section
/-! SUPPORT. What the memory operations do, and that every one keeps the canonical form. -/

namespace Sys2Proof.Machine

@[simp] theorem read_nil (a : Nat) : Memory.read [] a = 0#8 := rfl

theorem read_cons (k : Nat) (b : Byte) (m : Memory) (a : Nat) :
    Memory.read ((k, b) :: m) a = if k = a then b else m.read a := rfl

/-- Below its first entry a canonical memory lists nothing. -/
theorem read_of_lt (m : Memory) (a k : Nat) (h : ∀ c ∈ m, k < c.1) (ha : a ≤ k) : m.read a = 0#8 := by
  induction m with
  | nil => rfl
  | cons c m ih =>
    obtain ⟨j, b⟩ := c
    have hj : k < j := h (j, b) (List.mem_cons_self ..)
    rw [read_cons, if_neg (by omega)]
    exact ih fun c hc => h c (List.mem_cons_of_mem _ hc)

/-- The parts of the canonical form of a list with a first entry. -/
theorem wf_cons (k : Nat) (b : Byte) (m : Memory) :
    Memory.wf ((k, b) :: m) = true ↔ k < 4096 ∧ b ≠ 0#8 ∧ (∀ c ∈ m, k < c.1) ∧ m.wf = true := by
  simp [Memory.wf, and_assoc]

theorem wf_put (m : Memory) (a : Nat) (v : Byte) (ha : a < 4096) (hm : m.wf = true) (h : ∀ c ∈ m, a < c.1) :
    (Memory.put a v m).wf = true := by
  unfold Memory.put
  split
  · exact hm
  · rename_i hv
    exact (wf_cons a v m).2 ⟨ha, hv, h, hm⟩

theorem put_bound (m : Memory) (a k : Nat) (v : Byte) (hk : k < a) (h : ∀ c ∈ m, k < c.1) :
    ∀ c ∈ Memory.put a v m, k < c.1 := by
  unfold Memory.put
  split
  · exact h
  · intro c hc
    rcases List.mem_cons.1 hc with rfl | hc
    · exact hk
    · exact h c hc

theorem write_bound (m : Memory) (a k : Nat) (v : Byte) (hk : k < a) (h : ∀ c ∈ m, k < c.1) :
    ∀ c ∈ m.write a v, k < c.1 := by
  induction m with
  | nil => exact put_bound [] a k v hk (by simp)
  | cons c m ih =>
    obtain ⟨j, b⟩ := c
    have hj : k < j := h (j, b) (List.mem_cons_self ..)
    have hm : ∀ c ∈ m, k < c.1 := fun c hc => h c (List.mem_cons_of_mem _ hc)
    unfold Memory.write
    split
    · exact put_bound _ a k v hk h
    · split
      · exact put_bound _ a k v hk hm
      · intro c hc
        rcases List.mem_cons.1 hc with rfl | hc
        · exact hj
        · exact ih hm c hc

/-- A write below `MEM_SIZE` keeps the canonical form. -/
theorem wf_write (m : Memory) (a : Nat) (v : Byte) (ha : a < 4096) (hm : m.wf = true) : (m.write a v).wf = true := by
  induction m with
  | nil => exact wf_put [] a v ha hm (by simp)
  | cons c m ih =>
    obtain ⟨j, b⟩ := c
    obtain ⟨hj, hb, hlt, hwf⟩ := (wf_cons j b m).1 hm
    unfold Memory.write
    split
    · rename_i haj
      refine wf_put _ a v ha hm fun c hc => ?_
      rcases List.mem_cons.1 hc with rfl | hc
      · exact haj
      · exact Nat.lt_trans haj (hlt c hc)
    · split
      · rename_i haj
        exact wf_put _ a v ha hwf fun c hc => haj ▸ hlt c hc
      · exact (wf_cons j b _).2 ⟨hj, hb, write_bound m a j v (by omega) hlt, ih hwf⟩

theorem read_put (m : Memory) (a a' : Nat) (v : Byte) (h : ∀ c ∈ m, a < c.1) :
    (Memory.put a v m).read a' = if a' = a then v else m.read a' := by
  unfold Memory.put
  split
  · rename_i hv
    split
    · rename_i haa
      rw [haa, read_of_lt m a a h le_rfl]
      exact hv.symm
    · rfl
  · rw [read_cons]
    simp only [eq_comm]

/-- A read after a write: the byte written at its address, every other byte as before. -/
theorem read_write (m : Memory) (a a' : Nat) (v : Byte) (hm : m.wf = true) :
    (m.write a v).read a' = if a' = a then v else m.read a' := by
  induction m with
  | nil => exact read_put [] a a' v (by simp)
  | cons c m ih =>
    obtain ⟨j, b⟩ := c
    obtain ⟨hj, hb, hlt, hwf⟩ := (wf_cons j b m).1 hm
    unfold Memory.write
    split
    · rename_i haj
      refine read_put _ a a' v fun c hc => ?_
      rcases List.mem_cons.1 hc with rfl | hc
      · exact haj
      · exact Nat.lt_trans haj (hlt c hc)
    · split
      · rename_i haj
        subst haj
        rw [read_put m a a' v hlt, read_cons]
        by_cases h : a' = a
        · simp [h]
        · simp [h, Ne.symm h]
      · rename_i h1 h2
        rw [read_cons, read_cons, ih hwf]
        by_cases h : j = a'
        · simp [h, show ¬ a' = a by omega]
        · simp [h]

theorem wf_writeBytes (bs : List Byte) (m : Memory) (a : Nat) (ha : a + bs.length ≤ 4096) (hm : m.wf = true) :
    (m.writeBytes a bs).wf = true := by
  induction bs generalizing m a with
  | nil => exact hm
  | cons b bs ih =>
    simp only [List.length_cons] at ha
    exact ih (m.write a b) (a + 1) (by omega) (wf_write m a b (by omega) hm)

/-- A read after a store of bytes at ascending addresses. -/
theorem read_writeBytes (bs : List Byte) (m : Memory) (a a' : Nat) (ha : a + bs.length ≤ 4096) (hm : m.wf = true) :
    (m.writeBytes a bs).read a' = if h : a ≤ a' ∧ a' < a + bs.length then bs[a' - a]'(by omega) else m.read a' := by
  induction bs generalizing m a with
  | nil =>
    simp only [Memory.writeBytes, List.length_nil, Nat.add_zero]
    rw [dif_neg (by omega)]
  | cons b bs ih =>
    simp only [List.length_cons] at ha
    rw [Memory.writeBytes, ih (m.write a b) (a + 1) (by omega) (wf_write m a b (by omega) hm), read_write m a a' b hm]
    by_cases h0 : a' = a
    · subst h0
      simp
    · by_cases h1 : a + 1 ≤ a' ∧ a' < a + 1 + bs.length
      · rw [dif_pos h1, dif_pos ⟨by omega, by simp only [List.length_cons]; omega⟩]
        obtain ⟨d, rfl⟩ : ∃ d, a' = a + 1 + d := ⟨a' - (a + 1), by omega⟩
        have e1 : a + 1 + d - (a + 1) = d := by omega
        have e2 : a + 1 + d - a = d + 1 := by omega
        simp only [e1, e2, List.getElem_cons_succ]
      · rw [dif_neg h1, dif_neg (by simp only [List.length_cons]; omega), if_neg h0]

/-- A write leaves every other address alone, whatever the memory's form. -/
theorem read_write_ne (m : Memory) (a a' : Nat) (v : Byte) (h : a' ≠ a) : (m.write a v).read a' = m.read a' := by
  have put_ne : ∀ m' : Memory, (Memory.put a v m').read a' = m'.read a' := by
    intro m'
    unfold Memory.put
    split
    · rfl
    · rw [read_cons, if_neg (Ne.symm h)]
  induction m with
  | nil => exact put_ne []
  | cons c m ih =>
    obtain ⟨j, b⟩ := c
    unfold Memory.write
    split
    · exact put_ne _
    · split
      · rename_i haj
        rw [put_ne, read_cons, if_neg (by omega)]
      · rw [read_cons, read_cons, ih]

/-- Outside the stored bytes nothing changes, whatever the memory's form. -/
theorem read_writeBytes_outside (bs : List Byte) (m : Memory) (a a' : Nat) (h : ¬(a ≤ a' ∧ a' < a + bs.length)) :
    (m.writeBytes a bs).read a' = m.read a' := by
  induction bs generalizing m a with
  | nil => rfl
  | cons b bs ih =>
    simp only [List.length_cons] at h
    rw [Memory.writeBytes, ih (m.write a b) (a + 1) (by omega), read_write_ne m a a' b (by omega)]

@[simp] theorem readBytes_length (m : Memory) (a n : Nat) : (m.readBytes a n).length = n := by
  simp [Memory.readBytes]

theorem readBytes_getElem (m : Memory) (a n k : Nat) (h : k < (m.readBytes a n).length) :
    (m.readBytes a n)[k] = m.read (a + k) := by
  simp [Memory.readBytes]

@[simp] theorem bcdDigits_length (v : Byte) : (bcdDigits v).length = 3 := rfl

@[simp] theorem regsUpTo_length (s : State) (x : Reg) : (s.regsUpTo x).length = blockLen x := by
  simp only [State.regsUpTo, blockLen, List.length_take, Vector.length_toList]
  omega

theorem regsUpTo_getElem (s : State) (x r : Reg) (h : r.val < (s.regsUpTo x).length) :
    (s.regsUpTo x)[r.val] = s.reg r := by
  simp [State.regsUpTo, State.reg]

theorem outOfRange_false (base : Word) (len : Nat) (h : outOfRange base len = false) :
    len = 0 ∨ base.toNat + len ≤ 4096 := by
  simp only [outOfRange, Config.memSize, decide_eq_false_iff_not] at h
  omega

/-- The memory of a fresh instance has the canonical form (R261). -/
theorem wf_constructMemory (image font : List Byte) (fontBase : FontBase) (hi : imageFits image = true)
    (hf : fontDataFits font = true) : (constructMemory image font fontBase).wf = true := by
  simp only [imageFits, fontDataFits, Config.memSize, Config.progBase, Config.fontBytes, decide_eq_true_eq] at hi hf
  have hb := fontBase.isLt
  refine wf_writeBytes _ _ _ ?_ (wf_writeBytes _ _ _ ?_ rfl)
  · simp only [Config.progBase]; omega
  · omega

end Sys2Proof.Machine
end

