-- ==== Sys2Proof/Laws/State.lean ====
section
/-! SUPPORT. One lemma per field per update of the state. -/

namespace Sys2Proof.Machine

section SetReg
variable (s : State) (x r : Reg) (v : Byte)

theorem reg_eq_get : s.reg r = s.V[r] := rfl

/-- Reading a register after writing one. -/
theorem reg_setReg : (s.setReg x v).reg r = if r = x then v else s.reg r := by
  simp only [State.reg, State.setReg, Fin.getElem_fin, Vector.getElem_set, Fin.ext_iff, eq_comm]

@[simp] theorem reg_setReg_self : (s.setReg x v).reg x = v := by simp [reg_setReg]

theorem reg_setReg_ne (h : r ≠ x) : (s.setReg x v).reg r = s.reg r := by simp [reg_setReg, h]

@[simp] theorem setReg_pc : (s.setReg x v).pc = s.pc := rfl
@[simp] theorem setReg_I : (s.setReg x v).I = s.I := rfl
@[simp] theorem setReg_DT : (s.setReg x v).DT = s.DT := rfl
@[simp] theorem setReg_ST : (s.setReg x v).ST = s.ST := rfl
@[simp] theorem setReg_stack : (s.setReg x v).stack = s.stack := rfl
@[simp] theorem setReg_display : (s.setReg x v).display = s.display := rfl
@[simp] theorem setReg_status : (s.setReg x v).status = s.status := rfl
@[simp] theorem setReg_variant : (s.setReg x v).variant = s.variant := rfl
@[simp] theorem setReg_mem : (s.setReg x v).mem = s.mem := rfl
@[simp] theorem setReg_params : (s.setReg x v).params = s.params := rfl
@[simp] theorem setReg_inputs : (s.setReg x v).inputs = s.inputs := rfl
@[simp] theorem setReg_schedule : (s.setReg x v).schedule = s.schedule := rfl
@[simp] theorem setReg_draws : (s.setReg x v).draws = s.draws := rfl

end SetReg

section SetRegFlag
variable (s : State) (x r : Reg) (v : Byte) (f : Bool)

/-- The flag is the last write: `VF` holds it whatever `x` is (R21). -/
theorem reg_setRegFlag :
    (s.setRegFlag x v f).reg r = if r = VF then (if f then 1#8 else 0#8) else if r = x then v else s.reg r := by
  simp only [State.setRegFlag, reg_setReg]

@[simp] theorem setRegFlag_pc : (s.setRegFlag x v f).pc = s.pc := rfl
@[simp] theorem setRegFlag_I : (s.setRegFlag x v f).I = s.I := rfl
@[simp] theorem setRegFlag_DT : (s.setRegFlag x v f).DT = s.DT := rfl
@[simp] theorem setRegFlag_ST : (s.setRegFlag x v f).ST = s.ST := rfl
@[simp] theorem setRegFlag_stack : (s.setRegFlag x v f).stack = s.stack := rfl
@[simp] theorem setRegFlag_display : (s.setRegFlag x v f).display = s.display := rfl
@[simp] theorem setRegFlag_status : (s.setRegFlag x v f).status = s.status := rfl
@[simp] theorem setRegFlag_variant : (s.setRegFlag x v f).variant = s.variant := rfl
@[simp] theorem setRegFlag_mem : (s.setRegFlag x v f).mem = s.mem := rfl
@[simp] theorem setRegFlag_params : (s.setRegFlag x v f).params = s.params := rfl
@[simp] theorem setRegFlag_inputs : (s.setRegFlag x v f).inputs = s.inputs := rfl
@[simp] theorem setRegFlag_schedule : (s.setRegFlag x v f).schedule = s.schedule := rfl
@[simp] theorem setRegFlag_draws : (s.setRegFlag x v f).draws = s.draws := rfl

end SetRegFlag

section LoadRegs
variable (s : State) (x r : Reg)

/-- A block load writes `V[0]` to `V[x]` and no other register (R199). -/
theorem reg_loadRegs : (s.loadRegs x).reg r = if r ≤ x then s.mem.read (s.I.toNat + r) else s.reg r := by
  simp only [State.loadRegs, State.reg, Fin.getElem_fin, Vector.getElem_mapIdx, Fin.le_def]

@[simp] theorem loadRegs_pc : (s.loadRegs x).pc = s.pc := rfl
@[simp] theorem loadRegs_I : (s.loadRegs x).I = s.I := rfl
@[simp] theorem loadRegs_DT : (s.loadRegs x).DT = s.DT := rfl
@[simp] theorem loadRegs_ST : (s.loadRegs x).ST = s.ST := rfl
@[simp] theorem loadRegs_stack : (s.loadRegs x).stack = s.stack := rfl
@[simp] theorem loadRegs_display : (s.loadRegs x).display = s.display := rfl
@[simp] theorem loadRegs_status : (s.loadRegs x).status = s.status := rfl
@[simp] theorem loadRegs_variant : (s.loadRegs x).variant = s.variant := rfl
@[simp] theorem loadRegs_mem : (s.loadRegs x).mem = s.mem := rfl
@[simp] theorem loadRegs_params : (s.loadRegs x).params = s.params := rfl
@[simp] theorem loadRegs_inputs : (s.loadRegs x).inputs = s.inputs := rfl
@[simp] theorem loadRegs_schedule : (s.loadRegs x).schedule = s.schedule := rfl
@[simp] theorem loadRegs_draws : (s.loadRegs x).draws = s.draws := rfl

end LoadRegs

section Commit
variable (s : State) (k : Fault) (w : Option Word) (a : Option Access) (r : Reg)

@[simp] theorem commit_status : (s.commit k w a).status = .faulted ⟨k, s.pc, w, a⟩ := rfl
@[simp] theorem commit_reg : (s.commit k w a).reg r = s.reg r := rfl
@[simp] theorem commit_V : (s.commit k w a).V = s.V := rfl
@[simp] theorem commit_pc : (s.commit k w a).pc = s.pc := rfl
@[simp] theorem commit_I : (s.commit k w a).I = s.I := rfl
@[simp] theorem commit_DT : (s.commit k w a).DT = s.DT := rfl
@[simp] theorem commit_ST : (s.commit k w a).ST = s.ST := rfl
@[simp] theorem commit_stack : (s.commit k w a).stack = s.stack := rfl
@[simp] theorem commit_display : (s.commit k w a).display = s.display := rfl
@[simp] theorem commit_variant : (s.commit k w a).variant = s.variant := rfl
@[simp] theorem commit_mem : (s.commit k w a).mem = s.mem := rfl
@[simp] theorem commit_params : (s.commit k w a).params = s.params := rfl
@[simp] theorem commit_inputs : (s.commit k w a).inputs = s.inputs := rfl
@[simp] theorem commit_schedule : (s.commit k w a).schedule = s.schedule := rfl
@[simp] theorem commit_draws : (s.commit k w a).draws = s.draws := rfl
@[simp] theorem commit_fetch : (s.commit k w a).fetch = s.fetch := rfl

end Commit

section Draw
variable (s : State) (x y r : Reg) (z : Nibble)

/-- A draw writes no register but `VF` (R171). -/
theorem reg_draw :
    (s.draw x y z).reg r = if r = VF then (if (s.drawn x y z).2 then 1#8 else 0#8) else s.reg r := by
  unfold State.draw
  rw [reg_setReg]
  rfl

@[simp] theorem draw_display : (s.draw x y z).display = (s.drawn x y z).1 := rfl
@[simp] theorem draw_pc : (s.draw x y z).pc = s.pc := rfl
@[simp] theorem draw_I : (s.draw x y z).I = s.I := rfl
@[simp] theorem draw_DT : (s.draw x y z).DT = s.DT := rfl
@[simp] theorem draw_ST : (s.draw x y z).ST = s.ST := rfl
@[simp] theorem draw_stack : (s.draw x y z).stack = s.stack := rfl
@[simp] theorem draw_status : (s.draw x y z).status = s.status := rfl
@[simp] theorem draw_variant : (s.draw x y z).variant = s.variant := rfl
@[simp] theorem draw_mem : (s.draw x y z).mem = s.mem := rfl
@[simp] theorem draw_params : (s.draw x y z).params = s.params := rfl
@[simp] theorem draw_inputs : (s.draw x y z).inputs = s.inputs := rfl
@[simp] theorem draw_schedule : (s.draw x y z).schedule = s.schedule := rfl
@[simp] theorem draw_draws : (s.draw x y z).draws = s.draws := rfl

end Draw

section Host
variable (s : State) (inp : Inputs) (rest : List Transition) (r : Reg)

@[simp] theorem present_inputs : (s.present inp rest).inputs = inp := rfl
@[simp] theorem present_schedule : (s.present inp rest).schedule = rest := rfl
@[simp] theorem present_draws : (s.present inp rest).draws = s.draws := rfl
@[simp] theorem present_reg : (s.present inp rest).reg r = s.reg r := rfl
@[simp] theorem present_V : (s.present inp rest).V = s.V := rfl
@[simp] theorem present_pc : (s.present inp rest).pc = s.pc := rfl
@[simp] theorem present_I : (s.present inp rest).I = s.I := rfl
@[simp] theorem present_DT : (s.present inp rest).DT = s.DT := rfl
@[simp] theorem present_ST : (s.present inp rest).ST = s.ST := rfl
@[simp] theorem present_stack : (s.present inp rest).stack = s.stack := rfl
@[simp] theorem present_display : (s.present inp rest).display = s.display := rfl
@[simp] theorem present_status : (s.present inp rest).status = s.status := rfl
@[simp] theorem present_variant : (s.present inp rest).variant = s.variant := rfl
@[simp] theorem present_mem : (s.present inp rest).mem = s.mem := rfl
@[simp] theorem present_params : (s.present inp rest).params = s.params := rfl
@[simp] theorem present_fetch : (s.present inp rest).fetch = s.fetch := rfl

@[simp] theorem presentFree_inputs : s.presentFree.inputs = freeInputs s.draws := rfl
@[simp] theorem presentFree_schedule : s.presentFree.schedule = s.schedule := rfl
@[simp] theorem presentFree_draws : s.presentFree.draws = s.draws + 1 := rfl
@[simp] theorem presentFree_reg : s.presentFree.reg r = s.reg r := rfl
@[simp] theorem presentFree_V : s.presentFree.V = s.V := rfl
@[simp] theorem presentFree_pc : s.presentFree.pc = s.pc := rfl
@[simp] theorem presentFree_I : s.presentFree.I = s.I := rfl
@[simp] theorem presentFree_DT : s.presentFree.DT = s.DT := rfl
@[simp] theorem presentFree_ST : s.presentFree.ST = s.ST := rfl
@[simp] theorem presentFree_stack : s.presentFree.stack = s.stack := rfl
@[simp] theorem presentFree_display : s.presentFree.display = s.display := rfl
@[simp] theorem presentFree_status : s.presentFree.status = s.status := rfl
@[simp] theorem presentFree_variant : s.presentFree.variant = s.variant := rfl
@[simp] theorem presentFree_mem : s.presentFree.mem = s.mem := rfl
@[simp] theorem presentFree_params : s.presentFree.params = s.params := rfl
@[simp] theorem presentFree_fetch : s.presentFree.fetch = s.fetch := rfl

@[simp] theorem setSchedule_schedule : (s.setSchedule rest).schedule = rest := rfl
@[simp] theorem setSchedule_reg : (s.setSchedule rest).reg r = s.reg r := rfl
@[simp] theorem setSchedule_V : (s.setSchedule rest).V = s.V := rfl
@[simp] theorem setSchedule_pc : (s.setSchedule rest).pc = s.pc := rfl
@[simp] theorem setSchedule_I : (s.setSchedule rest).I = s.I := rfl
@[simp] theorem setSchedule_DT : (s.setSchedule rest).DT = s.DT := rfl
@[simp] theorem setSchedule_ST : (s.setSchedule rest).ST = s.ST := rfl
@[simp] theorem setSchedule_stack : (s.setSchedule rest).stack = s.stack := rfl
@[simp] theorem setSchedule_display : (s.setSchedule rest).display = s.display := rfl
@[simp] theorem setSchedule_status : (s.setSchedule rest).status = s.status := rfl
@[simp] theorem setSchedule_variant : (s.setSchedule rest).variant = s.variant := rfl
@[simp] theorem setSchedule_mem : (s.setSchedule rest).mem = s.mem := rfl
@[simp] theorem setSchedule_params : (s.setSchedule rest).params = s.params := rfl
@[simp] theorem setSchedule_inputs : (s.setSchedule rest).inputs = s.inputs := rfl
@[simp] theorem setSchedule_draws : (s.setSchedule rest).draws = s.draws := rfl
@[simp] theorem setSchedule_fetch : (s.setSchedule rest).fetch = s.fetch := rfl

@[simp] theorem tick_DT : s.tick.DT = tickDown s.DT := rfl
@[simp] theorem tick_ST : s.tick.ST = tickDown s.ST := rfl
@[simp] theorem tick_reg : s.tick.reg r = s.reg r := rfl
@[simp] theorem tick_V : s.tick.V = s.V := rfl
@[simp] theorem tick_pc : s.tick.pc = s.pc := rfl
@[simp] theorem tick_I : s.tick.I = s.I := rfl
@[simp] theorem tick_stack : s.tick.stack = s.stack := rfl
@[simp] theorem tick_display : s.tick.display = s.display := rfl
@[simp] theorem tick_status : s.tick.status = s.status := rfl
@[simp] theorem tick_variant : s.tick.variant = s.variant := rfl
@[simp] theorem tick_mem : s.tick.mem = s.mem := rfl
@[simp] theorem tick_params : s.tick.params = s.params := rfl
@[simp] theorem tick_inputs : s.tick.inputs = s.inputs := rfl
@[simp] theorem tick_schedule : s.tick.schedule = s.schedule := rfl
@[simp] theorem tick_draws : s.tick.draws = s.draws := rfl
@[simp] theorem tick_fetch : s.tick.fetch = s.fetch := rfl

end Host

end Sys2Proof.Machine
end

