-- ==== Sys2Proof/Laws/Ops.lean ====
section
/-! SUPPORT. What each shared operation can do, said once: the stack, the central advance, the guarded bodies, the fetch
and the transitions. -/

namespace Sys2Proof.Machine

/-! ## The stack -/

/-- A push succeeds below 16 entries and appends (R27). -/
theorem push_eq_some (s s1 : State) (v : Word) :
    s.push v = some s1 ↔ s.stack.length < 16 ∧ s1 = { s with stack := s.stack ++ [v] } := by
  unfold State.push
  split
  · rename_i h; simpa [h] using eq_comm
  · rename_i h; simpa using fun hh => absurd hh h

theorem push_eq_none (s : State) (v : Word) : s.push v = none ↔ 16 ≤ s.stack.length := by
  simp [State.push]

/-- A pop succeeds on a stack that has a last entry, and takes it (R27). -/
theorem pop_eq_some (s s1 : State) (v : Word) :
    s.pop = some (v, s1) ↔ s.stack.getLast? = some v ∧ s1 = { s with stack := s.stack.dropLast } := by
  unfold State.pop
  split
  · rename_i w h; simp [h, eq_comm]
  · rename_i h; simp [h]

theorem pop_eq_none (s : State) : s.pop = none ↔ s.stack = [] := by
  unfold State.pop
  split
  · rename_i w h
    constructor
    · intro h'; cases h'
    · intro h'; simp [h'] at h
  · rename_i h
    simpa using h

/-! ## The central advance -/

@[simp] theorem advanced_seq (i : Instr) (s s1 : State) : advanced i s s1 .seq = { s1 with pc := s.pc + 2#16 } := rfl
@[simp] theorem advanced_skip (i : Instr) (s s1 : State) : advanced i s s1 .skip = { s1 with pc := s.pc + 4#16 } := rfl
@[simp] theorem advanced_jump (i : Instr) (s s1 : State) (t : Word) : advanced i s s1 (.jump t) = { s1 with pc := t } := rfl
@[simp] theorem advanced_wait (i : Instr) (s s1 : State) (r : Reg) :
    advanced i s s1 (.wait r) = { s1 with pc := s.pc, status := .awaitingKey r } := rfl
@[simp] theorem advanced_fault (i : Instr) (s s1 : State) (k : Fault) (a : Option Access) :
    advanced i s s1 (.fault k a) = s.commit k (some (encode i)) a := rfl

/-- Every advance outcome answers a next state. -/
theorem complete_answers (i : Instr) (s s1 : State) (a : Advance) : ∃ t, complete i s s1 a = .next t := by
  exact ⟨_, rfl⟩

/-- What the central advance can answer (R108, R109). -/
theorem complete_cases (i : Instr) (s s1 t : State) (a : Advance) (h : complete i s s1 a = .next t) :
    (a = .seq ∧ t = { s1 with pc := s.pc + 2#16 }) ∨ (a = .skip ∧ t = { s1 with pc := s.pc + 4#16 }) ∨
    (∃ p, a = .jump p ∧ t = { s1 with pc := p }) ∨
    (∃ r, a = .wait r ∧ t = { s1 with pc := s.pc, status := .awaitingKey r }) ∨
    (∃ k acc, a = .fault k acc ∧ t = s.commit k (some (encode i)) acc) := by
  cases a with
  | seq => cases h; exact .inl ⟨rfl, rfl⟩
  | skip => cases h; exact .inr (.inl ⟨rfl, rfl⟩)
  | jump p => cases h; exact .inr (.inr (.inl ⟨p, rfl, rfl⟩))
  | wait r => cases h; exact .inr (.inr (.inr (.inl ⟨r, rfl, rfl⟩)))
  | fault k acc => cases h; exact .inr (.inr (.inr (.inr ⟨k, acc, rfl, rfl⟩)))

/-- A skip moves `pc` by 4, its refusal by 2 (R107, R128). -/
theorem complete_skipIf (i : Instr) (s s1 : State) (c : Bool) :
    complete i s s1 (skipIf c) = .next { s1 with pc := if c then s.pc + 4#16 else s.pc + 2#16 } := by
  cases c <;> rfl

/-- A guarded body runs on when its range lies in memory (R51). -/
theorem guarded_runs (i : Instr) (s s1 : State) (len : Nat) (h : ¬(0 < len ∧ 4096 ≤ s.I.toNat + len - 1)) :
    guarded i s len s1 = .next { s1 with pc := s.pc + 2#16 } := by
  have e : outOfRange s.I len = false := by simpa [outOfRange] using h
  simp [guarded, e, complete]

/-- A guarded body faults before any effect when its range does not lie in memory (R51, R109). -/
theorem guarded_faults (i : Instr) (s s1 : State) (len : Nat) (h : 0 < len ∧ 4096 ≤ s.I.toNat + len - 1) :
    guarded i s len s1 = .next (s.commit .memoryOutOfBounds (some (encode i)) (some ⟨s.I, len⟩)) := by
  have e : outOfRange s.I len = true := by simpa [outOfRange] using h
  simp [guarded, e, complete]

/-- What a guarded body can answer. -/
theorem guarded_cases (i : Instr) (s s1 t : State) (len : Nat) (h : guarded i s len s1 = .next t) :
    (¬(0 < len ∧ 4096 ≤ s.I.toNat + len - 1) ∧ t = { s1 with pc := s.pc + 2#16 }) ∨
    ((0 < len ∧ 4096 ≤ s.I.toNat + len - 1) ∧
      t = s.commit .memoryOutOfBounds (some (encode i)) (some ⟨s.I, len⟩)) := by
  by_cases hr : 0 < len ∧ 4096 ≤ s.I.toNat + len - 1
  · rw [guarded_faults i s s1 len hr] at h
    cases h
    exact .inr ⟨hr, rfl⟩
  · rw [guarded_runs i s s1 len hr] at h
    cases h
    exact .inl ⟨hr, rfl⟩

/-! ## The fetch, the cycle and the transitions -/

theorem fetch_eq_none (s : State) : s.fetch = none ↔ 4096 ≤ s.pc.toNat + 1 := by
  unfold State.fetch
  split <;> simp_all

theorem fetch_eq_some (s : State) (hi lo : Byte) :
    s.fetch = some (hi, lo) ↔
      s.pc.toNat + 1 < 4096 ∧ s.mem.read s.pc.toNat = hi ∧ s.mem.read (s.pc.toNat + 1) = lo := by
  unfold State.fetch
  split
  · rename_i h
    simp only [Config.memSize] at h
    simp only [reduceCtorEq, false_iff, not_and]
    omega
  · rename_i h
    simp only [Config.memSize] at h
    simp only [Option.some.injEq, Prod.mk.injEq]
    exact ⟨fun hh => ⟨by omega, hh⟩, fun hh => hh.2⟩

/-- What a running core's step can answer (R102). -/
theorem runInstr_cases (s t : State) (h : runInstr s = .next t) :
    (s.fetch = none ∧ t = s.commit .fetchOutOfBounds none none) ∨
    (∃ hi lo why, s.fetch = some (hi, lo) ∧ decode hi lo = .unknown why ∧
      t = s.commit .unknownOpcode (some (wordOfBytes hi lo)) none) ∨
    (∃ hi lo i, s.fetch = some (hi, lo) ∧ decode hi lo = .instr i ∧ exec i s = .next t) := by
  unfold runInstr at h
  split at h
  · rename_i hf
    cases h
    exact .inl ⟨hf, rfl⟩
  · rename_i hi lo hf
    split at h
    · rename_i why hd
      cases h
      exact .inr (.inl ⟨hi, lo, why, hf, hd, rfl⟩)
    · rename_i i hd
      exact .inr (.inr ⟨hi, lo, i, hf, hd, h⟩)

/-- What a step can answer: nothing changes unless the core runs (R103, R104). -/
theorem cycle_cases (s t : State) (h : cycle s = .next t) :
    (s.status ≠ .running ∧ t = s) ∨ (s.status = .running ∧ runInstr s = .next t) := by
  unfold cycle at h
  split at h
  · rename_i r hs
    cases h
    exact .inl ⟨by simp [hs], rfl⟩
  · rename_i r hs
    cases h
    exact .inl ⟨by simp [hs], rfl⟩
  · rename_i hs
    exact .inr ⟨hs, h⟩

theorem cycle_running (s : State) (h : s.status = .running) : cycle s = runInstr s := by
  simp [cycle, h]

/-- What a transition can answer, by what the schedule asks for (R100). -/
theorem step_cases (s t : State) (h : step s = .next t) :
    (∃ p, s.presented = some p ∧ cycle p = .next t) ∨
    (∃ rest, s.schedule = .tick :: rest ∧ t = (s.setSchedule rest).tick) ∨
    (∃ k rest, s.schedule = .keyDown k :: rest ∧ t = (s.setSchedule rest).keyDown k) ∨
    (∃ k rest, s.schedule = .keyUp k :: rest ∧ t = s.setSchedule rest) := by
  unfold step transition at h
  split at h
  · rename_i hs
    exact .inl ⟨s.presentFree, by simp [State.presented, hs], h⟩
  · rename_i inputs rest hs
    exact .inl ⟨s.present inputs rest, by simp [State.presented, hs], h⟩
  · rename_i rest hs
    cases h
    exact .inr (.inl ⟨rest, hs, rfl⟩)
  · rename_i k rest hs
    cases h
    exact .inr (.inr (.inl ⟨k, rest, hs, rfl⟩))
  · rename_i k rest hs
    cases h
    exact .inr (.inr (.inr ⟨k, rest, hs, rfl⟩))

/-- Where the schedule asks for a step, `step` is the cycle on the presented state. -/
theorem step_presented (s p : State) (h : s.presented = some p) : step s = cycle p := by
  unfold State.presented at h
  unfold step transition
  split at h <;> simp_all

/-- A presented state differs in its inputs, the schedule and the count alone. -/
theorem presented_eq (s p : State) (h : s.presented = some p) :
    p = { s with inputs := p.inputs, schedule := p.schedule, draws := p.draws } := by
  unfold State.presented at h
  split at h <;> first | (cases h; rfl) | cases h

/-- What a key press does (R192). -/
theorem keyDown_awaiting (s : State) (k : Nibble) (r : Reg) (h : s.status = .awaitingKey r) :
    s.keyDown k = { s.setReg r (k.setWidth 8) with pc := s.pc + 2#16, status := .running } := by
  simp [State.keyDown, h]

theorem keyDown_other (s : State) (k : Nibble) (h : ∀ r, s.status ≠ .awaitingKey r) : s.keyDown k = s := by
  unfold State.keyDown
  split
  · rename_i r hr
    exact absurd hr (h r)
  · rfl
  · rfl

/-- One tick of one timer (R230). -/
theorem tickDown_toNat (b : Byte) : (tickDown b).toNat = b.toNat - 1 := by
  unfold tickDown
  split
  · rename_i h
    simp [h]
  · rename_i h
    have h0 : b.toNat ≠ 0 := fun e => h (BitVec.eq_of_toNat_eq e)
    have := b.isLt
    rw [BitVec.toNat_sub]
    simp only [BitVec.toNat_ofNat]
    omega

end Sys2Proof.Machine
end

