-- ==== Sys2Proof/Laws/Frames.lean ====
section
/-! SUPPORT. The frame of each shared operation followed by the central advance: what it leaves as it was. -/

namespace Sys2Proof.Machine

variable (s : State) (p : Word)

theorem keeps_pc (w : Writes) : Keeps w s { s with pc := p } where
  regs _ _ := rfl
  index _ := rfl
  delay _ := rfl
  sound _ := rfl
  stack _ := rfl
  display _ := rfl
  status _ := rfl
  bytes _ _ := rfl
  variant := rfl
  params := rfl
  inputs := rfl
  schedule := rfl
  draws := rfl

theorem keeps_setReg (x : Reg) (v : Byte) : Keeps { regs := [x] } s { s.setReg x v with pc := p } where
  regs r hr := reg_setReg_ne s x r v (by simpa using hr)
  index _ := rfl
  delay _ := rfl
  sound _ := rfl
  stack _ := rfl
  display _ := rfl
  status _ := rfl
  bytes _ _ := rfl
  variant := rfl
  params := rfl
  inputs := rfl
  schedule := rfl
  draws := rfl

theorem keeps_setRegFlag (x : Reg) (v : Byte) (f : Bool) :
    Keeps { regs := [x, VF] } s { s.setRegFlag x v f with pc := p } where
  regs r hr := by
    simp only [List.mem_cons, List.not_mem_nil, or_false, not_or] at hr
    exact (reg_setRegFlag s x r v f).trans (by rw [if_neg hr.2, if_neg hr.1])
  index _ := rfl
  delay _ := rfl
  sound _ := rfl
  stack _ := rfl
  display _ := rfl
  status _ := rfl
  bytes _ _ := rfl
  variant := rfl
  params := rfl
  inputs := rfl
  schedule := rfl
  draws := rfl

theorem keeps_loadRegs (x : Reg) :
    Keeps { regs := (List.finRange 16).filter (· ≤ x) } s { s.loadRegs x with pc := p } where
  regs r hr := by
    have hx : ¬r ≤ x := fun h => hr (List.mem_filter.2 ⟨List.mem_finRange r, by simpa using h⟩)
    have h := reg_loadRegs s x r
    rw [if_neg hx] at h
    exact h
  index _ := rfl
  delay _ := rfl
  sound _ := rfl
  stack _ := rfl
  display _ := rfl
  status _ := rfl
  bytes _ _ := rfl
  variant := rfl
  params := rfl
  inputs := rfl
  schedule := rfl
  draws := rfl

/-- A store of bytes at `I` changes those bytes alone. -/
theorem keeps_writeBytes (bs : List Byte) (n : Nat) (hn : bs.length = n) :
    Keeps { base := s.I.toNat, len := n } s { s with pc := p, mem := s.mem.writeBytes s.I.toNat bs } where
  regs _ _ := rfl
  index _ := rfl
  delay _ := rfl
  sound _ := rfl
  stack _ := rfl
  display _ := rfl
  status _ := rfl
  bytes a ha := read_writeBytes_outside bs s.mem s.I.toNat a (by rw [hn]; exact ha)
  variant := rfl
  params := rfl
  inputs := rfl
  schedule := rfl
  draws := rfl

theorem keeps_draw (x y : Reg) (z : Nibble) :
    Keeps { regs := [VF], display := true } s { s.draw x y z with pc := p } where
  regs r hr := by
    have e : r ≠ VF := by simpa using hr
    have h := reg_draw s x y r z
    rw [if_neg e] at h
    exact h
  index _ := rfl
  delay _ := rfl
  sound _ := rfl
  stack _ := rfl
  display h := by cases h
  status _ := rfl
  bytes _ _ := rfl
  variant := rfl
  params := rfl
  inputs := rfl
  schedule := rfl
  draws := rfl

/-- A fault changes the status alone (R109, R225). -/
theorem keeps_commit (k : Fault) (w : Option Word) (a : Option Access) :
    Keeps { status := true } s (s.commit k w a) where
  regs _ _ := rfl
  index _ := rfl
  delay _ := rfl
  sound _ := rfl
  stack _ := rfl
  display _ := rfl
  status h := by cases h
  bytes _ _ := rfl
  variant := rfl
  params := rfl
  inputs := rfl
  schedule := rfl
  draws := rfl

end Sys2Proof.Machine
end

