-- ==== Sys2Proof/Laws/PerInstr.lean ====
section
/-! SUPPORT. Statements about every instruction as syntax, one lemma per constructor. -/

namespace Sys2Proof.Laws.Operands

/-- Every operand of the instruction fits its field (30_encoding.md R73). -/
def Statement (i : Instr) : Prop := i.wellFormed = true

theorem wf_reg (r : Reg) : (Operand.reg r).wellFormed = true := decide_eq_true r.isLt
theorem wf_byte (v : Byte) : (Operand.byte v.toNat).wellFormed = true := by
  exact decide_eq_true v.isLt
theorem wf_addr (v : Addr) : (Operand.addr v.toNat).wellFormed = true := by
  exact decide_eq_true v.isLt
theorem wf_nibble (v : Nibble) : (Operand.nibble v.toNat).wellFormed = true := by
  exact decide_eq_true v.isLt

/-- The types of `Instr` carry the widths of its fields. -/
theorem wf (i : Instr) : Statement i := by
  cases i <;> simp [Statement, Instr.wellFormed, Instr.operands, wf_reg, wf_byte, wf_addr, wf_nibble]

theorem cls : Statement .cls := wf _
theorem ret : Statement .ret := wf _
theorem jpAddr (nnn : Addr) : Statement (.jpAddr nnn) := wf _
theorem callAddr (nnn : Addr) : Statement (.callAddr nnn) := wf _
theorem seVxByte (x : Reg) (nn : Byte) : Statement (.seVxByte x nn) := wf _
theorem sneVxByte (x : Reg) (nn : Byte) : Statement (.sneVxByte x nn) := wf _
theorem seVxVy (x y : Reg) : Statement (.seVxVy x y) := wf _
theorem ldVxByte (x : Reg) (nn : Byte) : Statement (.ldVxByte x nn) := wf _
theorem addVxByte (x : Reg) (nn : Byte) : Statement (.addVxByte x nn) := wf _
theorem ldVxVy (x y : Reg) : Statement (.ldVxVy x y) := wf _
theorem orVxVy (x y : Reg) : Statement (.orVxVy x y) := wf _
theorem andVxVy (x y : Reg) : Statement (.andVxVy x y) := wf _
theorem xorVxVy (x y : Reg) : Statement (.xorVxVy x y) := wf _
theorem addVxVy (x y : Reg) : Statement (.addVxVy x y) := wf _
theorem subVxVy (x y : Reg) : Statement (.subVxVy x y) := wf _
theorem shrVxVy (x y : Reg) : Statement (.shrVxVy x y) := wf _
theorem subnVxVy (x y : Reg) : Statement (.subnVxVy x y) := wf _
theorem shlVxVy (x y : Reg) : Statement (.shlVxVy x y) := wf _
theorem sneVxVy (x y : Reg) : Statement (.sneVxVy x y) := wf _
theorem ldIAddr (nnn : Addr) : Statement (.ldIAddr nnn) := wf _
theorem jpV0Addr (nnn : Addr) : Statement (.jpV0Addr nnn) := wf _
theorem rndVxByte (x : Reg) (nn : Byte) : Statement (.rndVxByte x nn) := wf _
theorem drwVxVyNibble (x y : Reg) (z : Nibble) : Statement (.drwVxVyNibble x y z) := wf _
theorem skpVx (x : Reg) : Statement (.skpVx x) := wf _
theorem sknpVx (x : Reg) : Statement (.sknpVx x) := wf _
theorem ldVxDT (x : Reg) : Statement (.ldVxDT x) := wf _
theorem ldVxK (x : Reg) : Statement (.ldVxK x) := wf _
theorem ldDTVx (x : Reg) : Statement (.ldDTVx x) := wf _
theorem ldSTVx (x : Reg) : Statement (.ldSTVx x) := wf _
theorem addIVx (x : Reg) : Statement (.addIVx x) := wf _
theorem ldFVx (x : Reg) : Statement (.ldFVx x) := wf _
theorem ldBVx (x : Reg) : Statement (.ldBVx x) := wf _
theorem ldMemIVx (x : Reg) : Statement (.ldMemIVx x) := wf _
theorem ldVxMemI (x : Reg) : Statement (.ldVxMemI x) := wf _

end Sys2Proof.Laws.Operands
end

