-- ==== Sys2Proof/Tests/Slice0.lean ====
section
/-! SUPPORT. The model's own tests: ill-formed terms that the checks refuse, one written-out word for every row of the
opcode table, one or two steps of every instruction with results from 95_test_vectors.md or the rules' examples, and a
witness for the hypotheses of every statement that has some. -/

namespace Sys2Proof.Tests

open Sys2Proof Sys2Proof.Machine

/-! ## Well-formedness: each check refuses an ill-formed term -/

theorem test_wf_reg : (Operand.reg 15).wellFormed = true ∧ (Operand.reg 16).wellFormed = false := by decide
theorem test_wf_byte : (Operand.byte 255).wellFormed = true ∧ (Operand.byte 256).wellFormed = false := by decide
theorem test_wf_addr : (Operand.addr 4095).wellFormed = true ∧ (Operand.addr 4096).wellFormed = false := by decide
theorem test_wf_nibble : (Operand.nibble 15).wellFormed = true ∧ (Operand.nibble 16).wellFormed = false := by decide
theorem test_wf_font_base : fontBaseFits 0x1B0 = true ∧ fontBaseFits 0x1B1 = false := by decide
theorem test_wf_font_data : fontDataFits (List.replicate 80 0) = true ∧ fontDataFits (List.replicate 79 0) = false := by
  decide
theorem test_wf_image : imageFits (List.replicate 3584 0) = true ∧ imageFits (List.replicate 3585 0) = false := by
  unfold imageFits
  rw [List.length_replicate, List.length_replicate]
  decide

/-! ## Decoding: a word for every row, written out from the encodings of 30_encoding.md R74 to R79 -/

theorem test_decode_group_0 :
    decode 0b00000000#8 0b11100000#8 = .instr .cls ∧ decode 0b00000000#8 0b11101110#8 = .instr .ret ∧
    decode 0x00#8 0x00#8 = .unknown .group0 ∧ decode 0x01#8 0xE0#8 = .unknown .group0 ∧
    decode 0x00#8 0xFF#8 = .unknown .group0 := by decide
theorem test_decode_addresses :
    decode 0b00010010#8 0b00001000#8 = .instr (.jpAddr 0x208#12) ∧
    decode 0b00100010#8 0b00010000#8 = .instr (.callAddr 0x210#12) ∧
    decode 0b10101111#8 0b11111111#8 = .instr (.ldIAddr 0xFFF#12) ∧
    decode 0b10110101#8 0b00000000#8 = .instr (.jpV0Addr 0x500#12) := by decide
theorem test_decode_bytes :
    decode 0b00111111#8 0b00000001#8 = .instr (.seVxByte 15 0x01#8) ∧
    decode 0b01000011#8 0b00010001#8 = .instr (.sneVxByte 3 0x11#8) ∧
    decode 0b01101111#8 0b10101010#8 = .instr (.ldVxByte 15 0xAA#8) ∧
    decode 0b01110000#8 0b11111111#8 = .instr (.addVxByte 0 0xFF#8) ∧
    decode 0b11000011#8 0b00001111#8 = .instr (.rndVxByte 3 0x0F#8) := by decide
theorem test_decode_group_8 :
    decode 0b10000001#8 0b00110000#8 = .instr (.ldVxVy 1 3) ∧ decode 0b10000001#8 0b00110001#8 = .instr (.orVxVy 1 3) ∧
    decode 0b10000001#8 0b00110010#8 = .instr (.andVxVy 1 3) ∧ decode 0b10000001#8 0b00110011#8 = .instr (.xorVxVy 1 3) ∧
    decode 0b10000001#8 0b00110100#8 = .instr (.addVxVy 1 3) ∧ decode 0b10000001#8 0b00110101#8 = .instr (.subVxVy 1 3) ∧
    decode 0b10000001#8 0b00110110#8 = .instr (.shrVxVy 1 3) ∧ decode 0b10000001#8 0b00110111#8 = .instr (.subnVxVy 1 3) ∧
    decode 0b10000001#8 0b00111110#8 = .instr (.shlVxVy 1 3) ∧
    decode 0x81#8 0x28#8 = .unknown .group8 ∧ decode 0x81#8 0x2F#8 = .unknown .group8 := by decide
theorem test_decode_groups_5_9_D :
    decode 0b01010001#8 0b00100000#8 = .instr (.seVxVy 1 2) ∧ decode 0b10010001#8 0b00100000#8 = .instr (.sneVxVy 1 2) ∧
    decode 0x51#8 0x21#8 = .unknown .group5 ∧ decode 0x91#8 0x21#8 = .unknown .group9 ∧
    decode 0b11010001#8 0b00101111#8 = .instr (.drwVxVyNibble 1 2 0xF#4) ∧
    decode 0b11010001#8 0b00100000#8 = .instr (.drwVxVyNibble 1 2 0x0#4) := by decide
theorem test_decode_group_E :
    decode 0b11100001#8 0b10011110#8 = .instr (.skpVx 1) ∧ decode 0b11100001#8 0b10100001#8 = .instr (.sknpVx 1) ∧
    decode 0xE1#8 0xA2#8 = .unknown .groupE := by decide
theorem test_decode_group_F :
    decode 0b11111011#8 0b00000111#8 = .instr (.ldVxDT 11) ∧ decode 0b11110011#8 0b00001010#8 = .instr (.ldVxK 3) ∧
    decode 0b11111010#8 0b00010101#8 = .instr (.ldDTVx 10) ∧ decode 0b11110010#8 0b00011000#8 = .instr (.ldSTVx 2) ∧
    decode 0b11110101#8 0b00011110#8 = .instr (.addIVx 5) ∧ decode 0b11110000#8 0b00101001#8 = .instr (.ldFVx 0) ∧
    decode 0b11111010#8 0b00110011#8 = .instr (.ldBVx 10) ∧ decode 0b11110011#8 0b01010101#8 = .instr (.ldMemIVx 3) ∧
    decode 0b11110010#8 0b01100101#8 = .instr (.ldVxMemI 2) ∧ decode 0xF3#8 0x75#8 = .unknown .groupF := by decide
theorem test_decode_table_word :
    decodeTableWord 16 0x8125 = some (.subVxVy 1 2) ∧ decodeTableWord 16 0x00E0 = some .cls ∧
    decodeTableWord 16 0x5121 = none := by decide

/-! ## Steps: results from 95_test_vectors.md section 2, or from the rule's own example -/

/-- A fresh core with `FONT_BASE = 0x050` and `SHIFT_SOURCE = X`, the conventions of 95_test_vectors.md. -/
def base : State := { State.reset with params := ⟨0x050, .x⟩ }

/-- Set registers. -/
def regs (s : State) (l : List (Reg × Byte)) : State := l.foldl (fun s p => s.setReg p.1 p.2) s

/-- Inputs with `rnd = 0xA7` and key 4 held. -/
def keys : Inputs := ⟨0xA7#8, 0x0010#16, false⟩

/-- A word at `pc`, and one step scheduled. -/
def load (s : State) (word : Word) : State :=
  { s with mem := s.mem.writeBytes s.pc.toNat [hiByte word, loByte word], schedule := [.step keys] }

/-- The state one step later. -/
def after (s : State) : State :=
  match step s with
  | .next t => t
  | .fault _ => s
  | .refused _ => s

/-- One step of a word from given registers. -/
def run (s : State) (l : List (Reg × Byte)) (word : Word) : State := after (load (regs s l) word)

theorem test_ret : (fun t => (t.pc, t.stack)) (run { base with stack := [0x300, 0x206] } [] 0x00EE) = (0x206, [0x300]) := by
  decide
theorem test_ret_underflow : (run base [] 0x00EE).status = .faulted ⟨.stackUnderflow, 0x200, some 0x00EE, none⟩ := by decide
theorem test_jp : (run { base with pc := 0x20A } [] 0x1208).pc = 0x208 ∧ (run base [] 0x1FFF).pc = 0xFFF := by decide
theorem test_call : (fun t => (t.pc, t.stack)) (run { base with pc := 0x204 } [] 0x2210) = (0x210, [0x206]) := by decide
theorem test_call_overflow :
    (fun t => (t.pc, t.stack.length, t.status)) (run { base with stack := List.replicate 16 0x202 } [] 0x2300) =
      (0x200, 16, .faulted ⟨.stackOverflow, 0x200, some 0x2300, none⟩) := by decide
theorem test_se_byte :
    (run { base with pc := 0x208 } [(0, 0)] 0x3000).pc = 0x20C ∧ (run { base with pc := 0x208 } [(0, 1)] 0x3000).pc = 0x20A := by
  decide
theorem test_sne_byte :
    (run { base with pc := 0x300 } [(3, 0x10)] 0x4311).pc = 0x304 ∧
    (run { base with pc := 0x300 } [(3, 0x10)] 0x4310).pc = 0x302 := by decide
theorem test_se_reg : (run base [(1, 7), (2, 7)] 0x5120).pc = 0x204 ∧ (run base [(1, 7), (2, 8)] 0x5120).pc = 0x202 := by
  decide
theorem test_sne_reg : (run base [(1, 7), (2, 8)] 0x9120).pc = 0x204 ∧ (run base [(1, 7)] 0x9110).pc = 0x202 := by decide
theorem test_jp_v0 : (run base [(0, 0xFF)] 0xBFFF).pc = 0x10FE := by decide
theorem test_jp_v0_not_vx : (run base [(5, 9)] 0xB500).pc = 0x500 := by decide
theorem test_ld_byte : (run base [] 0x6FAA).reg 15 = 0xAA ∧ (run base [] 0x6FAA).pc = 0x202 := by decide
theorem test_add_byte_no_flag : (run base [(0, 0xFF), (15, 7)] 0x7001).reg 0 = 0 ∧ (run base [(0, 0xFF), (15, 7)] 0x7001).reg 15 = 7 := by
  decide
theorem test_ld_reg : (run base [(3, 0x42)] 0x8130).reg 1 = 0x42 := by decide
theorem test_or : (run base [(0, 0x0F), (1, 0xF0), (15, 7)] 0x8011).reg 0 = 0xFF ∧
    (run base [(0, 0x0F), (1, 0xF0), (15, 7)] 0x8011).reg 15 = 7 := by decide
theorem test_and : (run base [(0, 0x3C), (1, 0x0F)] 0x8012).reg 0 = 0x0C := by decide
theorem test_xor : (run base [(0, 0xFF), (1, 0x0F)] 0x8013).reg 0 = 0xF0 := by decide
theorem test_add_carry : (run base [(0, 0xF0), (1, 0x20)] 0x8014).reg 0 = 0x10 ∧
    (run base [(0, 0xF0), (1, 0x20)] 0x8014).reg 15 = 1 := by decide
theorem test_add_carry_into_vf : (run base [(15, 0xFF), (1, 1)] 0x8F14).reg 15 = 1 := by decide
theorem test_sub_borrow : (run base [(1, 5), (2, 0x1B)] 0x8125).reg 1 = 0xEA ∧
    (run base [(1, 5), (2, 0x1B)] 0x8125).reg 15 = 1 := by decide
theorem test_sub_equal : (run base [(1, 5), (2, 5), (15, 9)] 0x8125).reg 15 = 0 := by decide
theorem test_shr : (run base [(2, 0x01)] 0x8206).reg 2 = 0 ∧ (run base [(2, 0x01)] 0x8206).reg 15 = 1 := by decide
theorem test_shr_source_y :
    (run { base with params := ⟨0x050, .y⟩ } [(2, 0xEA), (3, 3)] 0x8236).reg 2 = 1 ∧
    (run { base with params := ⟨0x050, .y⟩ } [(2, 0xEA), (3, 3)] 0x8236).reg 15 = 1 := by decide
theorem test_subn : (run base [(0, 0x20), (1, 5)] 0x8017).reg 0 = 0xE5 ∧ (run base [(0, 0x20), (1, 5)] 0x8017).reg 15 = 1 := by
  decide
theorem test_shl : (run base [(0, 0x81)] 0x800E).reg 0 = 2 ∧ (run base [(0, 0x81)] 0x800E).reg 15 = 1 := by decide
theorem test_shl_source_y : (run { base with params := ⟨0x050, .y⟩ } [(3, 0x81)] 0x803E).reg 0 = 2 := by decide
theorem test_ld_i : (run base [] 0xAFFF).I = 0x0FFF := by decide
theorem test_rnd : (run base [] 0xC30F).reg 3 = 7 := by decide
theorem test_add_i : (run { base with I := 0xFFFF } [(0, 1), (15, 0)] 0xF01E).I = 0 ∧
    (run { base with I := 0x0FFF } [(0, 0xFF)] 0xF01E).I = 0x10FE := by decide
theorem test_ld_dt : (run { base with DT := 0x39 } [] 0xFB07).reg 11 = 0x39 := by decide
theorem test_set_dt : (run base [(10, 0x3C)] 0xFA15).DT = 0x3C := by decide
theorem test_set_st : (run base [(2, 3)] 0xF218).ST = 3 ∧ (run base [(2, 3)] 0xF218).soundActive = true := by decide
theorem test_key_wait : (fun t => (t.pc, t.status)) (run { base with pc := 0x206 } [] 0xF30A) = (0x206, .awaitingKey 3) := by
  decide
theorem test_font : (run base [(0, 0x1A)] 0xF029).I = 0x0082 := by decide
theorem test_bcd :
    (run { base with I := 0x300 } [(10, 156)] 0xFA33).mem.readBytes 0x300 3 = [1, 5, 6] ∧
    (run { base with I := 0x300 } [(10, 255)] 0xFA33).mem.readBytes 0x300 3 = [2, 5, 5] := by decide
theorem test_bcd_past_memory :
    (run { base with I := 0xFFE } [] 0xF033).status = .faulted ⟨.memoryOutOfBounds, 0x200, some 0xF033, some ⟨0xFFE, 3⟩⟩ := by
  decide
theorem test_store_regs :
    (run { base with I := 0x400 } [(0, 0x10), (1, 0x1B), (2, 0xEA), (3, 3), (4, 9)] 0xF355).mem.readBytes 0x400 5 =
      [0x10, 0x1B, 0xEA, 3, 0] := by decide
theorem test_store_regs_past_memory :
    (run { base with I := 0xFF1 } [] 0xFF55).status = .faulted ⟨.memoryOutOfBounds, 0x200, some 0xFF55, some ⟨0xFF1, 16⟩⟩ := by
  decide
theorem test_load_regs :
    (fun t : State => [t.reg 0, t.reg 1, t.reg 2, t.reg 3])
      (run { base with I := 0x300, mem := [(0x300, 1), (0x301, 5), (0x302, 6), (0x303, 7)] } [(3, 9)] 0xF265) =
      [1, 5, 6, 9] := by decide
theorem test_skp : (run { base with pc := 0x220 } [(1, 4)] 0xE19E).pc = 0x224 ∧
    (run { base with pc := 0x220 } [(1, 5)] 0xE19E).pc = 0x222 := by decide
theorem test_sknp : (run { base with pc := 0x220 } [(1, 4)] 0xE1A1).pc = 0x222 ∧
    (run { base with pc := 0x220 } [(1, 5)] 0xE1A1).pc = 0x224 := by decide

/-- The sprite data of 95_test_vectors.md 2.4: `mem[0x300] = FF`, `mem[0x301] = 81`. -/
def sprites : State := { base with I := 0x300, mem := [(0x300, 0xFF), (0x301, 0x81)] }

theorem test_cls :
    (fun t : State => (t.display.pixel 3 0, t.display.pixel 3 63, t.reg 15))
      (run { sprites with display := sprites.display.set 3 (Vector.replicate 64 true) } [(15, 7)] 0x00E0) =
      (false, false, 7) := by decide
theorem test_drw_clipped :
    (fun t : State => (t.display.pixel 0 59, t.display.pixel 0 60, t.display.pixel 0 63, t.display.pixel 0 0, t.reg 15))
      (run sprites [(0, 60), (15, 1)] 0xD011) = (false, true, true, false, 0) := by decide
theorem test_drw_collision :
    (fun t : State => (t.display.pixel 0 0, t.display.pixel 0 1, t.display.pixel 0 7, t.reg 15))
      (run { run sprites [] 0xD011 with I := 0x301 } [] 0xD011) = (false, true, false, 1) := by decide

/-! ## The other transitions (95_test_vectors.md 2.5 and 2.6) -/

/-- A core that waits for a key in `VF`. -/
def waiting : State := { load { base with pc := 0x206, DT := 5 } 0xFF0A with status := .awaitingKey 15, schedule := [] }

theorem test_step_while_waiting :
    (fun t => (t.pc, t.status, t.stepResult)) (after { waiting with schedule := [.step keys] }) =
      (0x206, .awaitingKey 15, .waiting) := by decide
theorem test_key_down :
    (fun t => (t.reg 15, t.pc, t.status)) (after { waiting with schedule := [.keyDown 0xA] }) = (0x0A, 0x208, .running) := by
  decide
theorem test_key_up : (after { waiting with schedule := [.keyUp 7] }).status = .awaitingKey 15 := by decide
theorem test_tick :
    (fun t => (t.DT, t.status)) (after { waiting with schedule := [.tick] }) = (4, .awaitingKey 15) ∧
    (fun t => (t.DT, t.ST, t.soundActive)) (after { base with ST := 1, schedule := [.tick] }) = (0, 0, false) := by decide
theorem test_last_word :
    (fun t => (t.reg 0, t.pc)) (run { base with pc := 0xFFE } [] 0x6001) = (1, 0x1000) := by decide
theorem test_odd_pc : (fun t => (t.reg 0, t.pc)) (run { base with pc := 0x201 } [] 0x6005) = (5, 0x203) := by decide
theorem test_fetch_fault :
    (after { base with pc := 0xFFF, schedule := [.step keys] }).status = .faulted ⟨.fetchOutOfBounds, 0xFFF, none, none⟩ := by
  decide
theorem test_unknown_word : (run base [] 0xFFFF).status = .faulted ⟨.unknownOpcode, 0x200, some 0xFFFF, none⟩ := by decide
/-- 70_reset_and_hazards.md R261: the first fetch of an empty image reads 0x0000, which is UnknownOpcode. -/
theorem test_step_from_reset :
    (after State.reset).stepResult = .fault ⟨.unknownOpcode, 0x200, some 0x0000, none⟩ := by decide
theorem test_with_fetch_word :
    (fun t => (t.reg 0, t.pc)) (after (State.reset.withFetchWord 16 0x6005)) = (5, 0x202) := by decide
theorem test_construct :
    (construct [0x60, 0x05] (List.replicate 80 0xF0) ⟨0x050, .x⟩ []).map
      (fun s => (s.mem.read 0x200, s.mem.read 0x201, s.mem.read 0x50, s.mem.read 0x9F, s.mem.read 0xA0)) =
      some (0x60, 0x05, 0xF0, 0xF0, 0) := by decide
theorem test_reset_memory_wf : State.reset.mem.wf = true := by decide

/-! ## Witnesses: for every statement that has hypotheses, a state and operands that meet all of them together -/

/-- A core at the last fetchable address, with a word there and nothing scheduled. -/
def last (word : Word) : State := { load { base with pc := 0xFFE } word with schedule := [] }

/-- A core that took a fault. -/
def stopped : State := { base with DT := 2, status := .faulted ⟨.unknownOpcode, 0x200, some 0x0000, none⟩ }

theorem witness_EncodeOfDecode : decode 0xFF#8 0x65#8 = .instr (.ldVxMemI 15) := by decide

theorem witness_FieldsOfTheFetchedWord : (last 0x812E).pc.toNat + 1 < 4096 := by decide

theorem witness_StepRunsDecodedInstruction_unscheduled :
    (last 0x6001).status = .running ∧ (last 0x6001).pc.toNat + 1 < 4096 ∧
    decode ((last 0x6001).mem.read (last 0x6001).pc.toNat) ((last 0x6001).mem.read ((last 0x6001).pc.toNat + 1)) =
      .instr (.ldVxByte 0 0x01#8) ∧ (last 0x6001).schedule = [] := by decide
theorem witness_StepRunsDecodedInstruction_scheduled :
    (load base 0xC30F).status = .running ∧ (load base 0xC30F).pc.toNat + 1 < 4096 ∧
    decode ((load base 0xC30F).mem.read 0x200) ((load base 0xC30F).mem.read 0x201) = .instr (.rndVxByte 3 0x0F#8) ∧
    (load base 0xC30F).schedule = .step keys :: [] := by decide

theorem witness_FetchOutOfBoundsExactly_at_the_end :
    State.presented { base with pc := 0xFFF } = some { base with pc := 0xFFF }.presentFree ∧
    base.status = .running ∧ 0xFFF ≤ (0xFFF#16).toNat := ⟨rfl, rfl, by decide⟩
theorem witness_FetchOutOfBoundsExactly_above :
    State.presented { base with pc := 0xFFFF } = some { base with pc := 0xFFFF }.presentFree ∧
    base.status = .running ∧ 0xFFF ≤ (0xFFFF#16).toNat := ⟨rfl, rfl, by decide⟩
theorem witness_FetchOutOfBoundsExactly_last :
    (last 0x0000).presented = some (last 0x0000).presentFree ∧ (last 0x0000).status = .running ∧
    (last 0x0000).pc.toNat < 0xFFF ∧
    ∃ t record, step (last 0x0000) = .next t ∧ t.stepResult = .fault record ∧ record.kind = .unknownOpcode :=
  ⟨rfl, rfl, by decide, _, _, rfl, rfl, rfl⟩

theorem witness_UnknownWordFaults :
    (last 0x5121).presented = some (last 0x5121).presentFree ∧ (last 0x5121).status = .running ∧
    (last 0x5121).pc.toNat + 1 < 4096 ∧
    decode ((last 0x5121).mem.read 0xFFE) ((last 0x5121).mem.read 0xFFF) = .unknown .group5 :=
  ⟨rfl, rfl, by decide, by decide⟩

theorem witness_FaultsArePrecise :
    (load base 0x00EE).presented = some ((load base 0x00EE).present keys []) ∧ (load base 0x00EE).status = .running ∧
    ∃ t record, step (load base 0x00EE) = .next t ∧ t.status = .faulted record := ⟨rfl, rfl, _, _, rfl, rfl⟩

theorem witness_FaultCauses :
    base.status = .running ∧ FaultsIn base .ret ∧ ¬FaultsIn base (.callAddr 0) ∧
    FaultsIn { base with stack := List.replicate 16 0 } (.callAddr 0) := by
  refine ⟨rfl, rfl, ?_, ?_⟩ <;> simp [FaultsIn, base, State.reset]

theorem witness_FaultIsSticky :
    stopped.status = .faulted ⟨.unknownOpcode, 0x200, some 0x0000, none⟩ ∧
    stopped.presented = some stopped.presentFree ∧
    State.schedule { stopped with schedule := [.keyDown 7] } = .keyDown 7 :: [] ∧
    State.schedule { stopped with schedule := [.tick] } = .tick :: [] := ⟨rfl, rfl, rfl, rfl⟩

theorem witness_WaitIsEnteredByKeyWaitAndWokenByKeyDown_enter :
    (last 0xFF0A).status = .running ∧ ∃ t, step (last 0xFF0A) = .next t ∧ t.status = .awaitingKey 15 :=
  ⟨rfl, _, rfl, rfl⟩
theorem witness_WaitIsEnteredByKeyWaitAndWokenByKeyDown_wait :
    waiting.status = .awaitingKey 15 ∧ (∃ t, step waiting = .next t) ∧ (∀ k rest, waiting.schedule ≠ .keyDown k :: rest) ∧
    State.schedule { waiting with schedule := [.tick] } = .tick :: [] := ⟨rfl, ⟨_, rfl⟩, fun _ _ => nofun, rfl⟩
theorem witness_WaitIsEnteredByKeyWaitAndWokenByKeyDown_step :
    (∃ t, step waiting = .next t ∧ t.DT = 5) ∧ waiting.presented = some waiting.presentFree ∧
    State.schedule { waiting with schedule := [.keyUp 0xF] } = .keyUp 0xF :: [] := ⟨⟨_, rfl, rfl⟩, rfl, rfl⟩
theorem witness_WaitIsEnteredByKeyWaitAndWokenByKeyDown_wake :
    ∃ t, step { waiting with schedule := [.keyDown 7] } = .next t ∧ t.status = .running := ⟨_, rfl, rfl⟩

theorem witness_KeyEvents :
    State.schedule { waiting with schedule := [.keyDown 0xF] } = .keyDown 0xF :: [] ∧ waiting.status = .awaitingKey 15 ∧
    State.schedule { base with schedule := [.keyDown 0xF] } = .keyDown 0xF :: [] ∧ (∀ r, base.status ≠ .awaitingKey r) ∧
    State.schedule { waiting with schedule := [.keyUp 0xF] } = .keyUp 0xF :: [] := ⟨rfl, rfl, rfl, fun _ => nofun, rfl⟩

theorem witness_TickDecrementsTimers :
    State.schedule { base with DT := 0, ST := 255, schedule := [.tick, .tick] } = .tick :: [.tick] := rfl

theorem witness_OnlyKeyWaitSuspends : base.status = .running := rfl

theorem witness_CentralAdvance_return :
    ∃ t, exec .ret { base with stack := [0x1000] } = .next t ∧ ¬FaultsIn { base with stack := [0x1000] } .ret :=
  ⟨_, rfl, by simp [FaultsIn]⟩
theorem witness_CentralAdvance_jumps :
    (∃ t, exec (.jpAddr 0xFFF#12) base = .next t ∧ ¬FaultsIn base (.jpAddr 0xFFF#12)) ∧
    (∃ t, exec (.jpV0Addr 0xFFF#12) (base.setReg 0 0xFF) = .next t ∧ ¬FaultsIn (base.setReg 0 0xFF) (.jpV0Addr 0xFFF#12)) ∧
    (∃ t, exec (.callAddr 0xFFF#12) base = .next t ∧ ¬FaultsIn base (.callAddr 0xFFF#12)) :=
  ⟨⟨_, rfl, id⟩, ⟨_, rfl, id⟩, ⟨_, rfl, by simp [FaultsIn, base, State.reset]⟩⟩
theorem witness_CentralAdvance_others :
    (∃ t, exec (.ldVxK 3) base = .next t ∧ ¬FaultsIn base (.ldVxK 3)) ∧
    (∃ t, exec (.seVxVy 3 3) base = .next t ∧ ¬FaultsIn base (.seVxVy 3 3)) ∧
    (∃ t, exec (.ldBVx 3) { base with I := 0xFFD } = .next t ∧ ¬FaultsIn { base with I := 0xFFD } (.ldBVx 3)) :=
  ⟨⟨_, rfl, id⟩, ⟨_, rfl, id⟩, ⟨_, rfl, by simp [FaultsIn]⟩⟩

theorem witness_SelfJumpLoops :
    (last 0x1FFE).status = .running ∧ (last 0x1FFE).pc = (0xFFE#12).setWidth 16 ∧ (last 0x1FFE).pc.toNat + 1 < 4096 ∧
    decode ((last 0x1FFE).mem.read 0xFFE) ((last 0x1FFE).mem.read 0xFFF) = .instr (.jpAddr 0xFFE#12) ∧
    ∀ e ∈ (last 0x1FFE).schedule, ∃ inputs, e = .step inputs := ⟨rfl, by decide, by decide, by decide, nofun⟩

theorem witness_ReturnPopsOrUnderflows :
    State.stack { base with stack := [0x300, 0x1000] } = [0x300] ++ [0x1000] ∧ base.stack = [] := ⟨rfl, rfl⟩

theorem witness_CallPushesOrOverflows :
    (State.stack { base with stack := List.replicate 15 0 }).length < 16 ∧
    16 ≤ (State.stack { base with stack := List.replicate 16 0 }).length := by decide

theorem witness_CallThenReturn :
    (State.stack { base with stack := List.replicate 15 0 }).length < 16 ∧
    ∃ t u : State, exec (.callAddr 0x300#12) { base with stack := List.replicate 15 0 } = .next t ∧ u.stack = t.stack ∧
      u.pc = 0x400 := ⟨by decide, _, { base with pc := 0x400, stack := List.replicate 15 0 ++ [0x202] }, rfl, rfl, rfl⟩

theorem witness_Shifts_source_x : base.params.shiftSource = .x ∧ (base.setReg 2 0x81).reg 2 = 0x81 := by decide
theorem witness_Shifts_source_y :
    State.params { base with params := ⟨432, .y⟩ } = ⟨432, .y⟩ ∧ (base.setReg 3 0x81).reg 3 = 0x81 := by decide

theorem witness_RandomMasked : State.inputs { base with inputs := keys } = keys ∧ keys.rnd = 0xA7 := ⟨rfl, rfl⟩

theorem witness_DrawXorsGridPixels :
    ¬(0 < (0xF#4).toNat ∧ 4096 ≤ (0xFF1#16).toNat + (0xF#4).toNat - 1) ∧
    ¬(0 < (0#4).toNat ∧ 4096 ≤ (0xFFFF#16).toNat + (0#4).toNat - 1) := by decide

theorem witness_DrawTwiceRestores :
    (0 : Reg) ≠ VF ∧ (1 : Reg) ≠ VF ∧ ¬(0 < (2#4).toNat ∧ 4096 ≤ sprites.I.toNat + (2#4).toNat - 1) ∧
    (∃ t, exec (.drwVxVyNibble 0 1 2#4) sprites = .next t) ∧
    sprites.spriteBit (sprites.reg 0).toNat (sprites.reg 1).toNat (2#4).toNat 1 7 = true :=
  ⟨by decide, by decide, by decide, ⟨_, rfl⟩, by decide⟩

theorem witness_StoreDecimalDigits : (State.I { base with I := 0xFFD }).toNat + 2 < 4096 ∧ base.mem.wf = true := by decide

theorem witness_StoreRegisters :
    (0xFF0#16).toNat + (15 : Reg).val < 4096 ∧ (0xFFF#16).toNat + (0 : Reg).val < 4096 ∧ sprites.mem.wf = true := by decide
theorem witness_LoadRegisters :
    (0xFF0#16).toNat + (15 : Reg).val < 4096 ∧ (0xFFF#16).toNat + (0 : Reg).val < 4096 := by decide

theorem witness_StoreThenLoadRegisters :
    sprites.mem.wf = true ∧ sprites.I.toNat + (15 : Reg).val < 4096 ∧
    ∃ t u : State, exec (.ldMemIVx 15) sprites = .next t ∧ u.mem = t.mem ∧ u.I = t.I ∧ u.reg 15 = 0x77 :=
  ⟨by decide, by decide, _, { sprites.setReg 15 0x77 with mem := sprites.mem.writeBytes 0x300 (sprites.regsUpTo 15) },
    rfl, rfl, rfl, by decide⟩

theorem witness_DataAccessPastMemoryFaults :
    (0 < (2#4).toNat ∧ 4096 ≤ (0xFFF#16).toNat + (2#4).toNat - 1) ∧ 4096 ≤ (0xFFE#16).toNat + 2 ∧
    4096 ≤ (0xFF1#16).toNat + (15 : Reg).val ∧ 4096 ≤ (0x1000#16).toNat + (0 : Reg).val := by decide

theorem witness_KeySkips_key :
    ((base.setReg 1 0xF).reg 1).toNat ≤ 0xF ∧ false = base.inputs.held.getLsbD 0xF ∧ true = keys.held.getLsbD 4 := by decide
theorem witness_KeySkips_above : 0xF < ((base.setReg 1 0x10).reg 1).toNat ∧ false = base.inputs.heldOor := by decide

theorem witness_InstructionsWriteOnlyTheirOwn :
    (∃ t, exec (.ldMemIVx 15) { base with I := 0xFF0 } = .next t ∧ ¬FaultsIn { base with I := 0xFF0 } (.ldMemIVx 15)) ∧
    (∃ t, exec (.ldMemIVx 15) { base with I := 0xFF1 } = .next t ∧ FaultsIn { base with I := 0xFF1 } (.ldMemIVx 15)) :=
  ⟨⟨_, rfl, by simp [FaultsIn]⟩, ⟨_, rfl, by simp [FaultsIn]⟩⟩

theorem witness_InputsAndSoundTimerAreUnread :
    (∃ t, exec (.ldDTVx 3) base = .next t) ∧ (∀ x nn, Instr.ldDTVx 3 ≠ .rndVxByte x nn) ∧
    (∀ x, Instr.ldDTVx 3 ≠ .skpVx x) ∧ (∀ x, Instr.ldDTVx 3 ≠ .sknpVx x) ∧ ∀ x, Instr.ldDTVx 3 ≠ .ldSTVx x :=
  ⟨⟨_, rfl⟩, fun _ _ => nofun, fun _ => nofun, fun _ => nofun, fun _ => nofun⟩

theorem witness_InputsAndSoundTimerAreUnread_overwritten :
    ∃ t, exec (.ldSTVx 2) { base with ST := 9 } = .next t ∧ ∃ x, Instr.ldSTVx 2 = .ldSTVx x := ⟨_, rfl, 2, rfl⟩

theorem witness_StepKeepsInvariant : base.Inv ∧ ∃ t, step base = .next t := by
  refine ⟨⟨by decide, by decide, nofun, by decide, fun _ => nofun, fun _ => nofun⟩, _, rfl⟩

theorem witness_Constructed :
    imageFits (List.replicate 2 0) = true ∧ fontDataFits (List.replicate 80 0) = true ∧
    ∃ s, construct (List.replicate 2 0) (List.replicate 80 0) ⟨432, .y⟩ [] = some s := ⟨by decide, by decide, _, rfl⟩
theorem witness_ConstructAcceptsOrRefuses :
    (List.replicate 3584 0#8).length ≤ 3584 ∧ (List.replicate 80 0#8).length = 80 ∧
    3584 < (List.replicate 3585 0#8).length := by
  simp only [List.length_replicate]
  decide

end Sys2Proof.Tests
end

section
/-! The state `Construct` builds (10_state.md R35 to R40, 70_reset_and_hazards.md R260, R261). -/

namespace Sys2Proof.Machine

/-! ## What `Construct` builds -/

/-- The one inversion of `construct`: when it accepts, and the state it builds then. -/
theorem construct_eq_some_iff (image font : List Byte) (params : Params) (schedule : List Transition) (s : State) :
    construct image font params schedule = some s ↔
      imageFits image = true ∧ fontDataFits font = true ∧
      s = { State.reset with
        mem := constructMemory image font params.fontBase, params := params, schedule := schedule } := by
  rw [construct, Option.ite_none_right_eq_some, Option.some.injEq, Bool.and_eq_true, and_assoc,
    eq_comm (b := s)]

/-! ## Registers and display -/

@[simp] theorem reset_reg (r : Reg) : State.reset.reg r = 0#8 := by
  simp [State.reg, State.reset]

@[simp] theorem reset_pixel (row col : Nat) : State.reset.display.pixel row col = false := by
  simp [Display.pixel, State.reset]

/-- Settles O58: a constructed state is the reset state but for its memory, parameters and schedule, and no clause reads
one of these three. -/
theorem constructedRegisters : Obligations.ConstructedRegisters := by
  unfold Obligations.ConstructedRegisters
  intro s hs
  obtain ⟨mem, params, schedule, rfl⟩ :
      ∃ mem params schedule, s = { State.reset with mem := mem, params := params, schedule := schedule } := by
    rcases hs with rfl | ⟨image, font, params, schedule, h⟩
    · exact ⟨_, _, _, rfl⟩
    · obtain ⟨-, -, hs⟩ := (construct_eq_some_iff image font params schedule s).1 h
      exact ⟨_, _, _, hs⟩
  exact ⟨reset_reg, rfl, rfl, rfl, rfl, fun row col _ _ => reset_pixel row col⟩

/-! ## Memory -/

/-- `read_writeBytes` with the stored byte read by `getD`, so that the index carries no proof. -/
theorem read_writeBytes_getD (bs : List Byte) (m : Memory) (a a' : Nat) (ha : a + bs.length ≤ 4096)
    (hm : m.wf = true) :
    (m.writeBytes a bs).read a' = if a ≤ a' ∧ a' < a + bs.length then bs.getD (a' - a) 0#8 else m.read a' := by
  rw [read_writeBytes bs m a a' ha hm]
  split
  · rw [List.getD_eq_getElem]
  · rfl

/-- A read of memory at construction (R40, R261): the image is written after the font data, so it comes first. -/
theorem read_constructMemory (image font : List Byte) (fontBase : FontBase) (hi : imageFits image = true)
    (hf : fontDataFits font = true) (a : Nat) :
    (constructMemory image font fontBase).read a =
      if 0x200 ≤ a ∧ a < 0x200 + image.length then image.getD (a - 0x200) 0#8
      else if fontBase.val ≤ a ∧ a < fontBase.val + 80 then font.getD (a - fontBase.val) 0#8
      else 0#8 := by
  have himage : 0x200 + image.length ≤ 4096 := by
    simp only [imageFits, Config.memSize, Config.progBase, decide_eq_true_eq] at hi
    omega
  have hfont : font.length = 80 := by simpa [fontDataFits] using hf
  have hbase : fontBase.val + font.length ≤ 4096 := by omega
  have hwf : (Memory.writeBytes [] fontBase.val font).wf = true := wf_writeBytes font [] fontBase.val hbase rfl
  rw [constructMemory, read_writeBytes_getD image _ _ a himage hwf, read_writeBytes_getD font [] _ a hbase rfl,
    hfont, read_nil]

/-- Settles O59: the memory of a constructed state is `constructMemory`, whose every read is known. -/
theorem constructedMemory : Obligations.ConstructedMemory := by
  unfold Obligations.ConstructedMemory
  intro image font params schedule s h
  obtain ⟨hi, hf, rfl⟩ := (construct_eq_some_iff image font params schedule s).1 h
  exact read_constructMemory image font params.fontBase hi hf

end Sys2Proof.Machine
end

section
/-! Fields of an instruction word, and the groups `nn` selects in (30_encoding.md R71, R78, R79). -/

namespace Sys2Proof

/-! ## The fields of a word `w x nn` -/

@[simp] theorem fieldW_wordOfXNN (w : Nibble) (x : Reg) (nn : Byte) : fieldW (wordOfXNN w x nn) = w := by
  apply BitVec.eq_of_toNat_eq
  rw [toNat_fieldW, toNat_wordOfXNN]
  omega

@[simp] theorem regOfNibble_fieldX_wordOfXNN (w : Nibble) (x : Reg) (nn : Byte) :
    regOfNibble (fieldX (wordOfXNN w x nn)) = x := by
  apply Fin.ext
  rw [val_regOfNibble, toNat_fieldX, toNat_wordOfXNN]
  omega

@[simp] theorem fieldNN_wordOfXNN (w : Nibble) (x : Reg) (nn : Byte) : fieldNN (wordOfXNN w x nn) = nn := by
  apply BitVec.eq_of_toNat_eq
  rw [toNat_fieldNN, toNat_wordOfXNN]
  omega

/-- The bytes `wx nn` form the word `w x nn`. -/
theorem wordOfBytes_eq_wordOfXNN (w : Nibble) (x : Reg) (nn : Byte) :
    wordOfBytes (BitVec.ofNat 8 (w.toNat * 16 + x.val)) nn = wordOfXNN w x nn := by
  apply BitVec.eq_of_toNat_eq
  rw [toNat_wordOfBytes, toNat_wordOfXNN, BitVec.toNat_ofNat]
  omega

/-- Decoding the bytes `wx nn` is decoding the word `w x nn`. -/
theorem decode_eq_decodeWord_wordOfXNN (w : Nibble) (x : Reg) (nn : Byte) :
    decode (BitVec.ofNat 8 (w.toNat * 16 + x.val)) nn = decodeWord (wordOfXNN w x nn) :=
  congrArg decodeWord (wordOfBytes_eq_wordOfXNN w x nn)

/-! ## The groups `0xE` and `0xF` -/

theorem decodeWord_groupE (x : Reg) (nn : Byte) : decodeWord (wordOfXNN 0xE#4 x nn) = decodeGroupE x nn := by
  simp [decodeWord]

theorem decodeWord_groupF (x : Reg) (nn : Byte) : decodeWord (wordOfXNN 0xF#4 x nn) = decodeGroupF x nn := by
  simp [decodeWord]

/-- Settles O5: the bytes form a word of group `0xE`, whose decoder is R78's choice by `nn`. -/
theorem groupESelectedByNN : Obligations.GroupESelectedByNN := by
  unfold Obligations.GroupESelectedByNN
  intro x nn
  calc decode (BitVec.ofNat 8 (0xE0 + x.val)) nn
    _ = decodeWord (wordOfXNN 0xE#4 x nn) := decode_eq_decodeWord_wordOfXNN 0xE#4 x nn
    _ = decodeGroupE x nn := decodeWord_groupE x nn

/-- Settles O6: the bytes form a word of group `0xF`, whose decoder is R79's table. -/
theorem groupFSelectedByNN : Obligations.GroupFSelectedByNN := by
  unfold Obligations.GroupFSelectedByNN
  intro x nn
  calc decode (BitVec.ofNat 8 (0xF0 + x.val)) nn
    _ = decodeWord (wordOfXNN 0xF#4 x nn) := decode_eq_decodeWord_wordOfXNN 0xF#4 x nn
    _ = decodeGroupF x nn := decodeWord_groupF x nn

/-! ## The overlapping fields of any word -/

/-- `nn` is `y` above `z` (R71). -/
theorem toNat_fieldNN_eq_or (word : Word) :
    (fieldNN word).toNat = (fieldY word).toNat <<< 4 ||| (fieldZ word).toNat := by
  rw [← Nat.shiftLeft_add_eq_or_of_lt (fieldZ word).isLt, Nat.shiftLeft_eq, toNat_fieldNN, toNat_fieldY, toNat_fieldZ]
  omega

/-- `nnn` is `x` above `nn` (R71). -/
theorem toNat_fieldNNN_eq_or (word : Word) :
    (fieldNNN word).toNat = (fieldX word).toNat <<< 8 ||| (fieldNN word).toNat := by
  rw [← Nat.shiftLeft_add_eq_or_of_lt (fieldNN word).isLt, Nat.shiftLeft_eq, toNat_fieldNNN, toNat_fieldX,
    toNat_fieldNN]
  omega

/-- Settles O8: a fetch in range reads the two bytes at `pc`, and every field has its value in their word. -/
theorem fieldsOfTheFetchedWord : Obligations.FieldsOfTheFetchedWord := by
  unfold Obligations.FieldsOfTheFetchedWord
  intro s hpc
  refine ⟨_, _, (Machine.fetch_eq_some s _ _).2 ⟨hpc, rfl, rfl⟩, rfl, rfl, ?_⟩
  rintro word rfl
  exact ⟨toNat_wordOfBytes _ _, toNat_fieldW _, toNat_fieldX _, toNat_fieldY _, toNat_fieldZ _, toNat_fieldNN _,
    toNat_fieldNN_eq_or _, toNat_fieldNNN _, toNat_fieldNNN_eq_or _⟩

end Sys2Proof
end

section
/-! The step of a running core (40_step_cycle.md R102 to R113): where its fetch faults, what an instruction can leave as
the status, and the jump to its own address. -/

namespace Sys2Proof.Machine

/-! ## The presented state and the step's result -/

section Presented
variable {s p : State} (h : s.presented = some p)
include h

theorem presented_pc : p.pc = s.pc := by rw [presented_eq s p h]

theorem presented_mem : p.mem = s.mem := by rw [presented_eq s p h]

theorem presented_status : p.status = s.status := by rw [presented_eq s p h]

/-- A scheduled `Step` of a running core fetches, decodes and executes in the presented state (R102). -/
theorem step_eq_runInstr (hs : s.status = .running) : step s = runInstr p :=
  (step_presented s p h).trans (cycle_running p ((presented_status h).trans hs))

end Presented

theorem stepResult_eq_fault (t : State) (record : FaultRecord) :
    t.stepResult = .fault record ↔ t.status = .faulted record := by
  cases h : t.status <;> simp [State.stepResult, h]

/-! ## How an instruction ends -/

/-- How `exec i s` can end (R107, R108): `i` completes with the status as it was, `i` is `Fx0A` and waits, or `i` takes
a fault, which is never that of the fetch. -/
inductive Ending (i : Instr) (s t : State) : Prop where
  | completes (hi : ∀ x, i ≠ .ldVxK x) (ht : t.status = s.status)
  | waits (x : Reg) (hi : i = .ldVxK x) (ht : t.status = .awaitingKey x)
  | faults (hi : ∀ x, i ≠ .ldVxK x) (kind : Fault) (access : Option Access) (hk : kind ≠ .fetchOutOfBounds)
      (ht : t = s.commit kind (some (encode i)) access)

theorem guarded_ending (i : Instr) (s s1 : State) (len : Nat) (hi : ∀ x, i ≠ .ldVxK x) (h1 : s1.status = s.status) :
    ∃ t, guarded i s len s1 = .next t ∧ Ending i s t := by
  by_cases hr : 0 < len ∧ 4096 ≤ s.I.toNat + len - 1
  · exact ⟨_, guarded_faults i s s1 len hr, .faults hi .memoryOutOfBounds _ nofun rfl⟩
  · exact ⟨_, guarded_runs i s s1 len hr, .completes hi h1⟩

theorem execRet_ending (s : State) : ∃ t, execRet s = .next t ∧ Ending .ret s t := by
  unfold execRet
  split
  · rename_i a s1 h
    obtain ⟨-, rfl⟩ := (pop_eq_some s s1 a).1 h
    exact ⟨_, rfl, .completes nofun rfl⟩
  · exact ⟨_, rfl, .faults nofun .stackUnderflow none nofun rfl⟩

theorem execCallAddr_ending (nnn : Addr) (s : State) :
    ∃ t, execCallAddr nnn s = .next t ∧ Ending (.callAddr nnn) s t := by
  unfold execCallAddr
  split
  · rename_i s1 h
    obtain ⟨-, rfl⟩ := (push_eq_some s s1 _).1 h
    exact ⟨_, rfl, .completes nofun rfl⟩
  · exact ⟨_, rfl, .faults nofun .stackOverflow none nofun rfl⟩

/-- Every instruction answers a next state, and how it ended. -/
theorem exec_ending (i : Instr) (s : State) : ∃ t, exec i s = .next t ∧ Ending i s t := by
  cases i with
  | ldVxK x => exact ⟨_, rfl, .waits x rfl rfl⟩
  | ret => exact execRet_ending s
  | callAddr nnn => exact execCallAddr_ending nnn s
  | drwVxVyNibble x y z => exact guarded_ending _ s _ _ nofun (draw_status s x y z)
  | ldBVx x => exact guarded_ending _ s _ _ nofun rfl
  | ldMemIVx x => exact guarded_ending _ s _ _ nofun rfl
  | ldVxMemI x => exact guarded_ending _ s _ _ nofun (loadRegs_status s x)
  | seVxByte | sneVxByte | seVxVy | sneVxVy | skpVx | sknpVx =>
    exact ⟨_, complete_skipIf _ s s _, .completes nofun rfl⟩
  | _ => exact ⟨_, rfl, .completes nofun rfl⟩

/-- Settles O20: of the three endings, only that of `Fx0A` leaves a running core waiting. -/
theorem onlyKeyWaitSuspends : Obligations.OnlyKeyWaitSuspends := by
  unfold Obligations.OnlyKeyWaitSuspends
  intro s i hs
  obtain ⟨t, he, hend⟩ := exec_ending i s
  refine ⟨t, he, ?_⟩
  cases hend with
  | completes hi ht => simp [ht, hs, hi]
  | waits x hi ht => simp [ht, hi]
  | faults hi kind access hk ht => simp [ht, hi]

/-! ## Where the fetch faults -/

/-- A step that fetches raises no `FetchOutOfBounds`: a fault of it is an Unknown word's or its instruction's. -/
theorem runInstr_kind_ne_fetchOutOfBounds {p t : State} {record : FaultRecord} (hp : p.status = .running)
    (hf : p.fetch ≠ none) (h : runInstr p = .next t) (ht : t.status = .faulted record) :
    record.kind ≠ .fetchOutOfBounds := by
  obtain ⟨hnone, -⟩ | ⟨hi, lo, why, -, -, rfl⟩ | ⟨hi, lo, i, -, -, he⟩ := runInstr_cases p t h
  · exact absurd hnone hf
  · obtain rfl := Status.faulted.inj ht
    exact nofun
  · obtain ⟨t', he', hend⟩ := exec_ending i p
    obtain rfl : t' = t := Host.Outcome.next.inj (he'.symm.trans he)
    cases hend with
    | completes _ h' => simp [h', hp] at ht
    | waits x _ h' => simp [h'] at ht
    | faults _ kind access hk h' =>
      subst h'
      obtain rfl := Status.faulted.inj ht
      exact hk

/-- Settles O11: the fetch finds no bytes exactly from 0xFFF on, and no later check of the step raises its fault. -/
theorem fetchOutOfBoundsExactly : Obligations.FetchOutOfBoundsExactly := by
  unfold Obligations.FetchOutOfBoundsExactly
  intro s p hp hs
  have hpc : p.pc = s.pc := presented_pc hp
  have hstep : step s = runInstr p := step_eq_runInstr hp hs
  constructor
  · intro hge
    have hf : p.fetch = none := (fetch_eq_none p).2 (by rw [hpc]; omega)
    exact ⟨p.commit .fetchOutOfBounds none none, _, by rw [hstep, runInstr, hf], rfl, rfl⟩
  · intro hlt
    have hf : p.fetch = some (s.mem.read s.pc.toNat, s.mem.read (s.pc.toNat + 1)) := by
      rw [fetch_eq_some, hpc, presented_mem hp]
      exact ⟨by omega, rfl, rfl⟩
    refine ⟨hf, fun t record ht hr => ?_⟩
    exact runInstr_kind_ne_fetchOutOfBounds ((presented_status hp).trans hs) (by simp [hf]) (hstep.symm.trans ht)
      ((stepResult_eq_fault t record).1 hr)

/-! ## The jump to its own address -/

/-- A running core at a `1nnn` whose target is its own address, with nothing but steps to come (R113). -/
structure AtSelfJump (nnn : Addr) (s : State) : Prop where
  running : s.status = .running
  fetched : ∃ hi lo, s.fetch = some (hi, lo) ∧ decode hi lo = .instr (.jpAddr nnn)
  target : s.pc = addrWord nnn
  stepsOnly : ∀ e ∈ s.schedule, ∃ inputs, e = .step inputs

/-- A schedule of steps asks for a `Step`, and one of steps remains. -/
theorem exists_presented_of_stepsOnly (s : State) (h : ∀ e ∈ s.schedule, ∃ inputs, e = Transition.step inputs) :
    ∃ p, s.presented = some p ∧ ∀ e ∈ p.schedule, ∃ inputs, e = Transition.step inputs := by
  cases hs : s.schedule with
  | nil => exact ⟨s.presentFree, by simp [State.presented, hs], h⟩
  | cons e rest =>
    rw [hs, List.forall_mem_cons] at h
    obtain ⟨⟨inputs, rfl⟩, hrest⟩ := h
    exact ⟨s.present inputs rest, by simp [State.presented, hs], hrest⟩

/-- Jumping to where `pc` stands changes nothing. -/
theorem exec_jpAddr_self (nnn : Addr) (s : State) (h : s.pc = addrWord nnn) : exec (.jpAddr nnn) s = .next s :=
  congrArg (fun pc => (Host.Outcome.next { s with pc := pc } : Host.Outcome State Fault Refusal)) h.symm

/-- One step of a self-jump changes what the host presents and nothing else, so the core stands at it again. -/
theorem AtSelfJump.step {nnn : Addr} {s : State} (h : AtSelfJump nnn s) :
    ∃ p, s.presented = some p ∧ step s = .next p ∧ AtSelfJump nnn p := by
  obtain ⟨p, hp, hsteps⟩ := exists_presented_of_stepsOnly s h.stepsOnly
  obtain ⟨hi, lo, hf, hd⟩ := h.fetched
  have hpf : p.fetch = some (hi, lo) := by rw [presented_eq s p hp]; exact hf
  have htarget : p.pc = addrWord nnn := (presented_pc hp).trans h.target
  have hrun : runInstr p = exec (.jpAddr nnn) p := by simp only [runInstr, hpf, hd]
  refine ⟨p, hp, ?_, (presented_status hp).trans h.running, ⟨hi, lo, hpf, hd⟩, htarget, hsteps⟩
  rw [step_eq_runInstr hp h.running, hrun, exec_jpAddr_self nnn p htarget]

/-- A first step that answers a next state is followed by the rest of the run. -/
theorem run_succ_of_step (M : Host.Core) (k : Nat) (s p : M.State) (h : M.step s = .next p) :
    M.run (k + 1) s = M.run k p := by
  simp only [Host.Core.run, h]

/-- Any number of steps of a self-jump change what the host presents and nothing else, by induction on the number. -/
theorem AtSelfJump.run {nnn : Addr} (k : Nat) {s : State} (h : AtSelfJump nnn s) :
    ∃ t, Host.Core.run Sys2Proof.core k s = .next t ∧
      t = { s with inputs := t.inputs, schedule := t.schedule, draws := t.draws } := by
  induction k generalizing s with
  | zero => exact ⟨s, rfl, rfl⟩
  | succ k ih =>
    obtain ⟨p, hp, hstep, hloop⟩ := h.step
    obtain ⟨t, hrun, ht⟩ := ih hloop
    refine ⟨t, (run_succ_of_step Sys2Proof.core k s p hstep).trans hrun, ?_⟩
    rw [presented_eq s p hp] at ht
    exact ht

/-- Settles O22: the premises put the core at a self-jump, where every step leaves it. -/
theorem selfJumpLoops : Obligations.SelfJumpLoops := by
  unfold Obligations.SelfJumpLoops
  intro s nnn k hs hpc hroom hdecode hsteps
  have hfetch : s.fetch = some (s.mem.read s.pc.toNat, s.mem.read (s.pc.toNat + 1)) :=
    (fetch_eq_some s _ _).2 ⟨hroom, rfl, rfl⟩
  exact AtSelfJump.run k ⟨hs, ⟨_, _, hfetch, hdecode⟩, hpc, hsteps⟩

end Sys2Proof.Machine
end

section
/-! Jumps and skips: their words under the row's mask, and their one effect, on `pc` (41_control_flow.md R121, R123 to
R126). -/

namespace Sys2Proof

/-! ## The bits a mask leaves of a word -/

/-- The mask `0xF000` leaves `w` of a word `w nnn`. -/
theorem wordOfNNN_and_maskW (w : Nibble) (nnn : Addr) : wordOfNNN w nnn &&& 0xF000#16 = wordOfNNN w 0 :=
  calc (w ++ nnn) &&& (BitVec.allOnes 4 ++ 0#12)
    _ = (w &&& BitVec.allOnes 4) ++ (nnn &&& 0#12) := BitVec.and_append
    _ = w ++ 0#12 := by rw [BitVec.and_allOnes, BitVec.and_zero]

/-- A word `w x nn` is a word `w nnn` whose address is `x` above `nn`. -/
theorem wordOfXNN_eq_wordOfNNN (w : Nibble) (x : Reg) (nn : Byte) :
    wordOfXNN w x nn = wordOfNNN w (nibbleOfReg x ++ nn) := by
  apply BitVec.eq_of_toNat_eq
  rw [toNat_wordOfXNN, toNat_wordOfNNN, toNat_concat, toNat_nibbleOfReg]
  omega

/-- The mask `0xF000` leaves `w` of a word `w x nn`. -/
theorem wordOfXNN_and_maskW (w : Nibble) (x : Reg) (nn : Byte) :
    wordOfXNN w x nn &&& 0xF000#16 = wordOfNNN w 0 := by
  rw [wordOfXNN_eq_wordOfNNN, wordOfNNN_and_maskW]

/-- The mask `0xF00F` leaves `w` and `z` of a word `w x y z`. -/
theorem wordOfXYZ_and_maskWZ (w : Nibble) (x y : Reg) (z : Nibble) :
    wordOfXYZ w x y z &&& 0xF00F#16 = wordOfXYZ w 0 0 z := by
  have hmask : 0xF00F#16 = ((BitVec.allOnes 4 ++ 0#4) ++ 0#4) ++ BitVec.allOnes 4 := rfl
  rw [hmask, wordOfXYZ, BitVec.and_append, BitVec.and_append, BitVec.and_append, BitVec.and_allOnes,
    BitVec.and_allOnes, BitVec.and_zero, BitVec.and_zero]
  rfl

end Sys2Proof

namespace Sys2Proof.Machine

theorem encoded_iff {i : Instr} {mask pattern : Word} : Encoded i mask pattern ↔ encode i &&& mask = pattern :=
  decide_eq_true_iff

/-! ## Instructions that write `pc` alone -/

/-- An instruction that answers the state with another `pc` completes and writes nothing else. -/
theorem completes_of_exec_pc {i : Instr} {s : State} {p : Word} (h : exec i s = .next { s with pc := p }) :
    Completes i s {} fun t => t.pc = p :=
  ⟨_, h, rfl, keeps_pc s p {}⟩

/-- A body that is a skip on a condition moves `pc` by 4 where it holds and by 2 where not, and writes nothing
else (R128). -/
theorem completes_of_exec_skipIf {i : Instr} {s : State} {c : Prop} [Decidable c]
    (h : exec i s = complete i s s (skipIf (decide c))) :
    Completes i s {} fun t => t.pc = if c then s.pc + 4#16 else s.pc + 2#16 := by
  apply completes_of_exec_pc
  rw [h, complete_skipIf]
  simp only [decide_eq_true_eq]

/-- Settles O26: the word is `1nnn`, and the jump's target is the only effect. -/
theorem jumpSetsPc : Obligations.JumpSetsPc := by
  unfold Obligations.JumpSetsPc
  intro s nnn
  exact ⟨encoded_iff.2 (wordOfNNN_and_maskW 0x1#4 nnn), completes_of_exec_pc rfl⟩

/-- Settles O27: the words are `3xnn` and `4xnn`, and both bodies are a skip on the byte. -/
theorem skipsOnByte : Obligations.SkipsOnByte := by
  unfold Obligations.SkipsOnByte
  intro s x nn
  refine ⟨?_, ?_, ?_, ?_⟩
  · exact encoded_iff.2 (wordOfXNN_and_maskW 0x3#4 x nn)
  · exact encoded_iff.2 (wordOfXNN_and_maskW 0x4#4 x nn)
  · exact completes_of_exec_skipIf rfl
  · exact completes_of_exec_skipIf rfl

/-- Settles O28: the words are `5xy0` and `9xy0`, and both bodies are a skip on the two registers. -/
theorem skipsOnRegister : Obligations.SkipsOnRegister := by
  unfold Obligations.SkipsOnRegister
  intro s x y
  refine ⟨?_, ?_, ?_, ?_⟩
  · exact encoded_iff.2 (wordOfXYZ_and_maskWZ 0x5#4 x y 0x0#4)
  · exact encoded_iff.2 (wordOfXYZ_and_maskWZ 0x9#4 x y 0x0#4)
  · exact completes_of_exec_skipIf rfl
  · exact completes_of_exec_skipIf rfl

end Sys2Proof.Machine
end

section
/-! Register loads and ALU: their words under the row's mask, the arithmetic of bytes and flags as numbers, and the
bodies that write a register, a register and the flag, or the index register (42_alu.md R140 to R142, R146, R147, R149,
R151, R153). -/

namespace Sys2Proof

/-- The mask `0xF0FF` leaves `w` and `nn` of a word `w x nn`. -/
theorem wordOfXNN_and_maskWNN (w : Nibble) (x : Reg) (nn : Byte) :
    wordOfXNN w x nn &&& 0xF0FF#16 = wordOfXNN w 0 nn := by
  have hmask : 0xF0FF#16 = (BitVec.allOnes 4 ++ 0#4) ++ BitVec.allOnes 8 := rfl
  rw [hmask, wordOfXNN, BitVec.and_append, BitVec.and_append, BitVec.and_allOnes, BitVec.and_allOnes, BitVec.and_zero]
  rfl

end Sys2Proof

namespace Sys2Proof.Machine

/-! ## Sums, differences and flags as numbers -/

theorem toNat_addByte (a b : Byte) : (addByte a b).toNat = (a.toNat + b.toNat) % 256 :=
  BitVec.toNat_ofNat _ 8

theorem toNat_subByte (a b : Byte) : ((subByte a b).toNat : Int) = (a.toNat - b.toNat : Int) % 256 := by
  rw [subByte, BitVec.toNat_ofInt]
  exact Int.toNat_of_nonneg (Int.emod_nonneg _ (by decide))

theorem toNat_addIndex (i : Word) (v : Byte) : (addIndex i v).toNat = (i.toNat + v.toNat) % 65536 :=
  BitVec.toNat_ofNat _ 16

/-- The address is zero-extended: its number stays the same. -/
theorem toNat_addrWord (nnn : Addr) : (addrWord nnn).toNat = nnn.toNat :=
  BitVec.toNat_setWidth_of_le (by decide)

theorem toNat_carryFlag (a b : Byte) : (carryFlag a b).toNat = if a.toNat + b.toNat > 255 then 1 else 0 :=
  Bool.cond_decide _ 1 0

theorem toNat_borrowFlag (a b : Byte) : (borrowFlag a b).toNat = if a.toNat < b.toNat then 1 else 0 :=
  Bool.cond_decide _ 1 0

/-! ## What the writes leave -/

/-- After a result and a flag, `VF` is the flag as a number, whatever the result's register (R21). -/
theorem toNat_reg_setRegFlag_VF (s : State) (x : Reg) (v : Byte) (f : Bool) :
    ((s.setRegFlag x v f).reg VF).toNat = f.toNat := by
  rw [reg_setRegFlag, if_pos rfl]
  cases f <;> rfl

/-- The flag does not overwrite a result in another register. -/
theorem reg_setRegFlag_of_ne_VF (s : State) (x : Reg) (v : Byte) (f : Bool) (hx : x ≠ VF) :
    (s.setRegFlag x v f).reg x = v := by
  rw [reg_setRegFlag, if_neg hx, if_pos rfl]

/-- A write of the index register, followed by the central advance, leaves everything else as it was. -/
theorem keeps_setIndex (s : State) (n p : Word) : Keeps { index := true } s { s with I := n, pc := p } where
  regs _ _ := rfl
  index h := by cases h
  delay _ := rfl
  sound _ := rfl
  stack _ := rfl
  display _ := rfl
  status _ := rfl
  bytes _ _ := rfl
  variant := rfl
  params := rfl
  inputs := rfl
  schedule := rfl
  draws := rfl

/-! ## Bodies that write a register, a register and the flag, or `I`, and advance by 2 -/

section Bodies
variable {i : Instr} {s : State} {w : Writes} {P Q : State → Prop} {x : Reg} {v a b : Byte} {f : Bool}

/-- A consequence of what holds after an instruction holds after it. -/
theorem Completes.imp (h : Completes i s w P) (himp : ∀ t, P t → Q t) : Completes i s w Q := by
  obtain ⟨t, hexec, hP, hkeeps⟩ := h
  exact ⟨t, hexec, himp t hP, hkeeps⟩

/-- A body that writes `V[x]` alone. -/
theorem completes_of_exec_setReg (h : exec i s = complete i s (s.setReg x v) .seq) :
    Completes i s { regs := [x] } fun t => t.reg x = v ∧ t.pc = s.pc + 2#16 :=
  ⟨_, h, ⟨reg_setReg_self s x v, rfl⟩, keeps_setReg s _ x v⟩

/-- A body that writes a result to `V[x]`, then the flag to `VF` (R21, R110). -/
theorem completes_of_exec_setRegFlag (h : exec i s = complete i s (s.setRegFlag x v f) .seq) :
    Completes i s { regs := [x, VF] } fun t =>
      (x ≠ VF → t.reg x = v) ∧ (t.reg VF).toNat = f.toNat ∧ t.pc = s.pc + 2#16 :=
  ⟨_, h, ⟨reg_setRegFlag_of_ne_VF s x v f, toNat_reg_setRegFlag_VF s x v f, rfl⟩, keeps_setRegFlag s _ x v f⟩

/-- A body that writes the index register alone. -/
theorem completes_of_exec_setIndex {n : Word} (h : exec i s = complete i s { s with I := n } .seq) :
    Completes i s { index := true } fun t => t.I = n ∧ t.pc = s.pc + 2#16 :=
  ⟨_, h, ⟨rfl, rfl⟩, keeps_setIndex s n _⟩

/-- A subtraction in either order: `a - b` mod 256 in `V[x]`, then the borrow of `a - b` in `VF` (R147, R149). -/
theorem completes_of_exec_subtract
    (h : exec i s = complete i s (s.setRegFlag x (subByte a b) (borrowFlag a b)) .seq) :
    Completes i s { regs := [x, VF] } fun t =>
      (x ≠ VF → ((t.reg x).toNat : Int) = (a.toNat - b.toNat : Int) % 256) ∧
      (t.reg VF).toNat = (if a.toNat < b.toNat then 1 else 0) ∧ t.pc = s.pc + 2#16 := by
  refine (completes_of_exec_setRegFlag h).imp ?_
  rintro t ⟨hresult, hflag, hpc⟩
  refine ⟨fun hx => ?_, hflag.trans (toNat_borrowFlag a b), hpc⟩
  rw [hresult hx, toNat_subByte]

end Bodies

/-! ## Loads and the addition without a flag -/

/-- Settles O30: the word is `6xnn`, and the body writes the byte to `V[x]`. -/
theorem loadByte : Obligations.LoadByte := by
  unfold Obligations.LoadByte
  intro s x nn
  exact ⟨encoded_iff.2 (wordOfXNN_and_maskW 0x6#4 x nn), completes_of_exec_setReg rfl⟩

/-- Settles O31: the word is `7xnn`, and the body writes the sum mod 256 to `V[x]` and no flag. -/
theorem addByteNoFlag : Obligations.AddByteNoFlag := by
  unfold Obligations.AddByteNoFlag
  intro s x nn
  refine ⟨encoded_iff.2 (wordOfXNN_and_maskW 0x7#4 x nn), (completes_of_exec_setReg rfl).imp ?_⟩
  rintro t ⟨hsum, hpc⟩
  exact ⟨by rw [hsum, toNat_addByte], hpc⟩

/-- Settles O32: the word is `8xy0`, and the body writes `V[y]` to `V[x]`. -/
theorem copyRegister : Obligations.CopyRegister := by
  unfold Obligations.CopyRegister
  intro s x y
  exact ⟨encoded_iff.2 (wordOfXYZ_and_maskWZ 0x8#4 x y 0x0#4), completes_of_exec_setReg rfl⟩

/-! ## Arithmetic with a flag -/

/-- Settles O34: the word is `8xy4`, and the body writes the sum mod 256 to `V[x]`, then the carry to `VF`. -/
theorem addWithCarry : Obligations.AddWithCarry := by
  unfold Obligations.AddWithCarry
  intro s x y
  refine ⟨encoded_iff.2 (wordOfXYZ_and_maskWZ 0x8#4 x y 0x4#4), (completes_of_exec_setRegFlag rfl).imp ?_⟩
  rintro t ⟨hsum, hflag, hpc⟩
  refine ⟨fun hx => ?_, hflag.trans (toNat_carryFlag _ _), hpc⟩
  rw [hsum hx, toNat_addByte]

/-- Settles O35: the word is `8xy5`, and the body is the subtraction `V[x] - V[y]`. -/
theorem subtractWithBorrow : Obligations.SubtractWithBorrow := by
  unfold Obligations.SubtractWithBorrow
  intro s x y
  exact ⟨encoded_iff.2 (wordOfXYZ_and_maskWZ 0x8#4 x y 0x5#4), completes_of_exec_subtract rfl⟩

/-- Settles O36: the word is `8xy7`, and the body is the subtraction `V[y] - V[x]`. -/
theorem reverseSubtractWithBorrow : Obligations.ReverseSubtractWithBorrow := by
  unfold Obligations.ReverseSubtractWithBorrow
  intro s x y
  exact ⟨encoded_iff.2 (wordOfXYZ_and_maskWZ 0x8#4 x y 0x7#4), completes_of_exec_subtract rfl⟩

/-! ## The index register -/

/-- Settles O39: the word is `Annn`, and the body writes the zero-extended address to `I`. -/
theorem loadIndex : Obligations.LoadIndex := by
  unfold Obligations.LoadIndex
  intro s nnn
  refine ⟨encoded_iff.2 (wordOfNNN_and_maskW 0xA#4 nnn), (completes_of_exec_setIndex rfl).imp ?_⟩
  rintro t ⟨hindex, hpc⟩
  exact ⟨by rw [hindex, toNat_addrWord], hpc⟩

/-- Settles O40: the word is `Fx1E`, and the body writes the sum mod 65536 to `I` and no register. -/
theorem addToIndex : Obligations.AddToIndex := by
  unfold Obligations.AddToIndex
  intro s x
  refine ⟨encoded_iff.2 (wordOfXNN_and_maskWNN 0xF#4 x 0x1E#8), (completes_of_exec_setIndex rfl).imp ?_⟩
  rintro t ⟨hsum, hpc⟩
  exact ⟨by rw [hsum, toNat_addIndex], hpc⟩

end Sys2Proof.Machine
end

section
/-! Clearing the display: the word `00E0` under the row's mask, and the frame of a write of the display alone
(43_display.md R170). -/

namespace Sys2Proof.Machine

/-- A write of the display, followed by the central advance, leaves everything else as it was, `VF` included. -/
theorem keeps_setDisplay (s : State) (d : Display) (p : Word) :
    Keeps { display := true } s { s with display := d, pc := p } where
  regs _ _ := rfl
  index _ := rfl
  delay _ := rfl
  sound _ := rfl
  stack _ := rfl
  display h := by cases h
  status _ := rfl
  bytes _ _ := rfl
  variant := rfl
  params := rfl
  inputs := rfl
  schedule := rfl
  draws := rfl

/-- A body that writes the display alone. -/
theorem completes_of_exec_setDisplay {i : Instr} {s : State} {d : Display}
    (h : exec i s = complete i s { s with display := d } .seq) :
    Completes i s { display := true } fun t => t.display = d ∧ t.pc = s.pc + 2#16 :=
  ⟨_, h, ⟨rfl, rfl⟩, keeps_setDisplay s d _⟩

/-- Settles O42: the word is `00E0`, and the body writes the cleared display and no register. -/
theorem clearDisplay : Obligations.ClearDisplay := by
  unfold Obligations.ClearDisplay
  refine ⟨encoded_iff.2 (by decide), fun s => (completes_of_exec_setDisplay rfl).imp ?_⟩
  rintro t ⟨hdisplay, hpc⟩
  refine ⟨hpc, fun row col _ _ => ?_⟩
  rw [hdisplay, pixel_clear]

end Sys2Proof.Machine
end

section
/-! The key wait: entered by `Fx0A` alone, woken by KeyDown alone, everything kept in between (60_exceptions.md R236,
40_step_cycle.md R104). -/

namespace Sys2Proof.Machine

/-! ## What a transition does, by the head of the schedule -/

section Scheduled
variable {s : State} {k : Nibble} {rest : List Transition}

theorem step_tick (h : s.schedule = .tick :: rest) : step s = .next (s.setSchedule rest).tick := by
  simp only [step, transition, h]

theorem step_keyDown (h : s.schedule = .keyDown k :: rest) : step s = .next ((s.setSchedule rest).keyDown k) := by
  simp only [step, transition, h]

/-- KeyUp changes nothing (R193). -/
theorem step_keyUp (h : s.schedule = .keyUp k :: rest) : step s = .next (s.setSchedule rest) := by
  simp only [step, transition, h, State.keyUp]

end Scheduled

/-! ## Entering the wait -/

/-- The instruction of a running core that leaves it waiting for `V[r]` was fetched and decodes to `Fx0A` with
`x = r`. -/
theorem runInstr_awaiting {p t : State} {r : Reg} (hp : p.status = .running) (h : runInstr p = .next t)
    (ht : t.status = .awaitingKey r) :
    ∃ hi lo, p.fetch = some (hi, lo) ∧ decode hi lo = .instr (.ldVxK r) := by
  obtain ⟨-, rfl⟩ | ⟨hi, lo, why, -, -, rfl⟩ | ⟨hi, lo, i, hf, hd, he⟩ := runInstr_cases p t h
  · cases ht
  · cases ht
  · obtain ⟨t', he', hend⟩ := exec_ending i p
    obtain rfl : t' = t := Host.Outcome.next.inj (he'.symm.trans he)
    cases hend with
    | completes _ hst => simp [hst, hp] at ht
    | waits x hx hst =>
      obtain rfl : x = r := Status.awaitingKey.inj (hst.symm.trans ht)
      exact ⟨hi, lo, hf, hx ▸ hd⟩
    | faults _ kind access _ hst => cases hst ▸ ht

/-- A transition that takes a running core into a wait runs an instruction: a tick and a key event leave it running. -/
theorem runInstr_of_step_awaiting {s t : State} {r : Reg} (hs : s.status = .running) (h : step s = .next t)
    (ht : t.status = .awaitingKey r) : ∃ p, s.presented = some p ∧ runInstr p = .next t := by
  obtain ⟨p, hp, -⟩ | ⟨rest, -, rfl⟩ | ⟨k, rest, -, rfl⟩ | ⟨k, rest, -, rfl⟩ := step_cases s t h
  · exact ⟨p, hp, (step_eq_runInstr hp hs).symm.trans h⟩
  · simp [hs] at ht
  · rw [keyDown_other _ k (by simp [hs])] at ht
    simp [hs] at ht
  · simp [hs] at ht

/-! ## During the wait -/

section Waiting
variable {s t : State} {r : Reg} (hs : s.status = .awaitingKey r)
include hs

theorem cycle_awaiting : cycle s = .next s := by
  simp only [cycle, hs]

theorem stepResult_awaiting : s.stepResult = .waiting := by
  simp only [State.stepResult, hs]

/-- A `Step` of a waiting core changes only what the host presents (R104). -/
theorem step_awaiting_presented {p : State} (hp : s.presented = some p) : step s = .next p :=
  (step_presented s p hp).trans (cycle_awaiting ((presented_status hp).trans hs))

/-- A transition other than KeyDown changes no part of a waiting core but the timers (R104, R193, R230). -/
theorem step_awaiting_eq (h : step s = .next t) (hkey : ∀ k rest, s.schedule ≠ .keyDown k :: rest) :
    t = { s with DT := t.DT, ST := t.ST, inputs := t.inputs, schedule := t.schedule, draws := t.draws } := by
  obtain ⟨p, hp, -⟩ | ⟨rest, -, rfl⟩ | ⟨k, rest, hk, -⟩ | ⟨k, rest, -, rfl⟩ := step_cases s t h
  · obtain rfl : p = t := Host.Outcome.next.inj ((step_awaiting_presented hs hp).symm.trans h)
    rw [presented_eq s p hp]
  · rfl
  · exact absurd hk (hkey k rest)
  · rfl

/-- KeyDown wakes a waiting core (R192), and every other transition keeps the wait. -/
theorem running_iff_keyDown_of_awaiting (h : step s = .next t) :
    t.status = .running ↔ ∃ k rest, s.schedule = .keyDown k :: rest := by
  constructor
  · intro ht
    by_contra hkey
    push Not at hkey
    rw [step_awaiting_eq hs h hkey, hs] at ht
    cases ht
  · rintro ⟨k, rest, hk⟩
    obtain rfl := Host.Outcome.next.inj ((step_keyDown hk).symm.trans h)
    rw [keyDown_awaiting (s.setSchedule rest) k r hs]

end Waiting

/-- Settles O16: the wait is entered through the one ending of an instruction that waits; during it, the step is known
from the head of the schedule, and everything that is kept follows from the one equation of `step_awaiting_eq`. -/
theorem waitIsEnteredByKeyWaitAndWokenByKeyDown : Obligations.WaitIsEnteredByKeyWaitAndWokenByKeyDown := by
  unfold Obligations.WaitIsEnteredByKeyWaitAndWokenByKeyDown
  constructor
  · intro s t r hs h ht
    obtain ⟨p, hp, hrun⟩ := runInstr_of_step_awaiting hs h ht
    obtain ⟨hi, lo, hf, hd⟩ := runInstr_awaiting ((presented_status hp).trans hs) hrun ht
    obtain ⟨hpc, rfl, rfl⟩ := (fetch_eq_some p hi lo).1 hf
    rw [presented_pc hp] at hpc
    rw [presented_pc hp, presented_mem hp] at hd
    exact ⟨hpc, hd⟩
  · intro s t r hs h
    refine ⟨running_iff_keyDown_of_awaiting hs h, fun hkey => ?_, fun p hp => ?_, fun k rest hk => ?_,
      fun rest hk => ?_⟩
    · rw [step_awaiting_eq hs h hkey]
      exact ⟨hs, fun _ => rfl, rfl, fun _ => rfl, rfl, rfl, rfl⟩
    · obtain rfl := Host.Outcome.next.inj ((step_awaiting_presented hs hp).symm.trans h)
      exact ⟨rfl, stepResult_awaiting ((presented_status hp).trans hs)⟩
    · exact Host.Outcome.next.inj (h.symm.trans (step_keyUp hk))
    · obtain rfl := Host.Outcome.next.inj ((step_tick hk).symm.trans h)
      exact ⟨tickDown_toNat s.DT, tickDown_toNat s.ST, rfl⟩

end Sys2Proof.Machine
end


section
/-! Decoder, encoder and opcode table: decode and encode are inverse, a row selects the encodings of its instructions and
no other word, and the Unknown words are those no instruction encodes to (30_encoding.md R74 to R80). -/

namespace Sys2Proof

/-! ## The fields of the words `w nnn` and `w x y z` -/

@[simp] theorem fieldW_wordOfNNN (w : Nibble) (nnn : Addr) : fieldW (wordOfNNN w nnn) = w := by
  apply BitVec.eq_of_toNat_eq
  rw [toNat_fieldW, toNat_wordOfNNN]
  omega

@[simp] theorem fieldNNN_wordOfNNN (w : Nibble) (nnn : Addr) : fieldNNN (wordOfNNN w nnn) = nnn := by
  apply BitVec.eq_of_toNat_eq
  rw [toNat_fieldNNN, toNat_wordOfNNN]
  omega

@[simp] theorem fieldW_wordOfXYZ (w : Nibble) (x y : Reg) (z : Nibble) : fieldW (wordOfXYZ w x y z) = w := by
  apply BitVec.eq_of_toNat_eq
  rw [toNat_fieldW, toNat_wordOfXYZ]
  omega

@[simp] theorem regOfNibble_fieldX_wordOfXYZ (w : Nibble) (x y : Reg) (z : Nibble) :
    regOfNibble (fieldX (wordOfXYZ w x y z)) = x := by
  apply Fin.ext
  rw [val_regOfNibble, toNat_fieldX, toNat_wordOfXYZ]
  omega

@[simp] theorem regOfNibble_fieldY_wordOfXYZ (w : Nibble) (x y : Reg) (z : Nibble) :
    regOfNibble (fieldY (wordOfXYZ w x y z)) = y := by
  apply Fin.ext
  rw [val_regOfNibble, toNat_fieldY, toNat_wordOfXYZ]
  omega

@[simp] theorem fieldZ_wordOfXYZ (w : Nibble) (x y : Reg) (z : Nibble) : fieldZ (wordOfXYZ w x y z) = z := by
  apply BitVec.eq_of_toNat_eq
  rw [toNat_fieldZ, toNat_wordOfXYZ]
  omega

/-! ## Decode and encode are inverse -/

/-- The decoder reads an instruction from its word; each case is one form of word, whose fields are its operands. -/
theorem decodeWord_encode (i : Instr) : decodeWord (encode i) = .instr i := by
  cases i with
  | cls | ret => rfl
  | jpAddr | callAddr | ldIAddr | jpV0Addr => simp [encode, decodeWord]
  | seVxByte | sneVxByte | ldVxByte | addVxByte | rndVxByte => simp [encode, decodeWord]
  | seVxVy | sneVxVy | drwVxVyNibble => simp [encode, decodeWord]
  | ldVxVy | orVxVy | andVxVy | xorVxVy | addVxVy | subVxVy | shrVxVy | subnVxVy | shlVxVy =>
    simp [encode, decodeWord, decodeGroup8]
  | skpVx | sknpVx => simp [encode, decodeWord_groupE, decodeGroupE]
  | ldVxDT | ldVxK | ldDTVx | ldSTVx | addIVx | ldFVx | ldBVx | ldMemIVx | ldVxMemI =>
    simp [encode, decodeWord_groupF, decodeGroupF]

/-- Settles O1: the two bytes of an encoding form its word again, which the decoder reads back. -/
theorem decodeOfEncode : Obligations.DecodeOfEncode := by
  unfold Obligations.DecodeOfEncode
  intro i
  rw [decode, wordOfBytes_hi_lo, decodeWord_encode]

section Fields
variable {word : Word} {w z : Nibble} {nn : Byte}

theorem wordOfNNN_of_fieldW (hw : fieldW word = w) : wordOfNNN w (fieldNNN word) = word := by
  rw [← hw, wordOfNNN_fields]

theorem wordOfXNN_of_fieldW (hw : fieldW word = w) :
    wordOfXNN w (regOfNibble (fieldX word)) (fieldNN word) = word := by
  rw [← hw, wordOfXNN_fields]

theorem wordOfXNN_of_fields (hw : fieldW word = w) (hnn : fieldNN word = nn) :
    wordOfXNN w (regOfNibble (fieldX word)) nn = word := by
  rw [← hnn, wordOfXNN_of_fieldW hw]

theorem wordOfXYZ_of_fields (hw : fieldW word = w) (hz : fieldZ word = z) :
    wordOfXYZ w (regOfNibble (fieldX word)) (regOfNibble (fieldY word)) z = word := by
  rw [← hw, ← hz, wordOfXYZ_fields]

end Fields

/-- An instruction of group 8 is read from no word but its own. -/
theorem encode_of_decodeGroup8 {word : Word} {i : Instr} (hw : fieldW word = 0x8#4)
    (h : decodeGroup8 (regOfNibble (fieldX word)) (regOfNibble (fieldY word)) (fieldZ word) = .instr i) :
    encode i = word := by
  rcases decodeGroup8_instr _ _ _ i h with ⟨hz, rfl⟩ | ⟨hz, rfl⟩ | ⟨hz, rfl⟩ | ⟨hz, rfl⟩ | ⟨hz, rfl⟩ | ⟨hz, rfl⟩ |
    ⟨hz, rfl⟩ | ⟨hz, rfl⟩ | ⟨hz, rfl⟩ <;> exact wordOfXYZ_of_fields hw hz

/-- An instruction of group 0xE is read from no word but its own. -/
theorem encode_of_decodeGroupE {word : Word} {i : Instr} (hw : fieldW word = 0xE#4)
    (h : decodeGroupE (regOfNibble (fieldX word)) (fieldNN word) = .instr i) : encode i = word := by
  rcases decodeGroupE_instr _ _ i h with ⟨hnn, rfl⟩ | ⟨hnn, rfl⟩ <;> exact wordOfXNN_of_fields hw hnn

/-- An instruction of group 0xF is read from no word but its own. -/
theorem encode_of_decodeGroupF {word : Word} {i : Instr} (hw : fieldW word = 0xF#4)
    (h : decodeGroupF (regOfNibble (fieldX word)) (fieldNN word) = .instr i) : encode i = word := by
  rcases decodeGroupF_instr _ _ i h with ⟨hnn, rfl⟩ | ⟨hnn, rfl⟩ | ⟨hnn, rfl⟩ | ⟨hnn, rfl⟩ | ⟨hnn, rfl⟩ | ⟨hnn, rfl⟩ |
    ⟨hnn, rfl⟩ | ⟨hnn, rfl⟩ | ⟨hnn, rfl⟩ <;> exact wordOfXNN_of_fields hw hnn

/-- An instruction is read from no word but its own: group by group, the decoder looks at every bit that is not in an
operand. -/
theorem encode_of_decodeWord {word : Word} {i : Instr} (h : decodeWord word = .instr i) : encode i = word := by
  rcases decodeWord_instr word i h with ⟨-, h0⟩ | ⟨hw, rfl⟩ | ⟨hw, rfl⟩ | ⟨hw, rfl⟩ | ⟨hw, rfl⟩ | ⟨hw, hz, rfl⟩ |
    ⟨hw, rfl⟩ | ⟨hw, rfl⟩ | ⟨hw, h8⟩ | ⟨hw, hz, rfl⟩ | ⟨hw, rfl⟩ | ⟨hw, rfl⟩ | ⟨hw, rfl⟩ | ⟨hw, rfl⟩ | ⟨hw, hE⟩ | ⟨hw, hF⟩
  · rcases decodeGroup0_instr word i h0 with ⟨rfl, rfl⟩ | ⟨rfl, rfl⟩ <;> rfl
  · exact wordOfNNN_of_fieldW hw
  · exact wordOfNNN_of_fieldW hw
  · exact wordOfXNN_of_fieldW hw
  · exact wordOfXNN_of_fieldW hw
  · exact wordOfXYZ_of_fields hw hz
  · exact wordOfXNN_of_fieldW hw
  · exact wordOfXNN_of_fieldW hw
  · exact encode_of_decodeGroup8 hw h8
  · exact wordOfXYZ_of_fields hw hz
  · exact wordOfNNN_of_fieldW hw
  · exact wordOfNNN_of_fieldW hw
  · exact wordOfXNN_of_fieldW hw
  · exact wordOfXYZ_of_fields hw rfl
  · exact encode_of_decodeGroupE hw hE
  · exact encode_of_decodeGroupF hw hF

/-- Settles O2: `decode` is the decoder on the word of the two bytes, of which `encode_of_decodeWord` speaks. -/
theorem encodeOfDecode : Obligations.EncodeOfDecode := by
  unfold Obligations.EncodeOfDecode
  intro hi lo i h
  exact encode_of_decodeWord h

theorem decodeWord_eq_instr_iff (word : Word) (i : Instr) : decodeWord word = .instr i ↔ encode i = word :=
  ⟨encode_of_decodeWord, fun h => h ▸ decodeWord_encode i⟩

/-- The Unknown words are those no instruction encodes to. -/
theorem decodeWord_unknown_iff_ne_encode (word : Word) :
    (∃ why, decodeWord word = .unknown why) ↔ ∀ i, encode i ≠ word := by
  simp only [ne_eq, ← decodeWord_eq_instr_iff]
  cases decodeWord word <;> simp

/-! ## The rows of the opcode table -/

/-- The mask `0xF000` leaves the field `w` of any word. -/
theorem and_maskW (word : Word) : word &&& 0xF000#16 = wordOfNNN (fieldW word) 0 := by
  rw [← wordOfNNN_and_maskW (fieldW word) (fieldNNN word), wordOfNNN_fields]

/-- The mask `0xF000` leaves `w` of a word `w x y z`. -/
theorem wordOfXYZ_and_maskW (w : Nibble) (x y : Reg) (z : Nibble) :
    wordOfXYZ w x y z &&& 0xF000#16 = wordOfNNN w 0 := by
  rw [and_maskW, fieldW_wordOfXYZ]

theorem row_selects_iff (r : Row) (word : Word) : r.selects word = true ↔ word &&& r.mask = r.pattern :=
  decide_eq_true_iff

/-- An instruction's word has the fixed bits of its row. -/
theorem row_selects_encode (i : Instr) : i.row.selects (encode i) = true := by
  rw [row_selects_iff]
  cases i with
  | cls | ret => rfl
  | jpAddr | callAddr | ldIAddr | jpV0Addr => exact wordOfNNN_and_maskW _ _
  | seVxByte | sneVxByte | ldVxByte | addVxByte | rndVxByte => exact wordOfXNN_and_maskW _ _ _
  | drwVxVyNibble => exact wordOfXYZ_and_maskW _ _ _ _
  | seVxVy | ldVxVy | orVxVy | andVxVy | xorVxVy | addVxVy | subVxVy | shrVxVy | subnVxVy | shlVxVy | sneVxVy =>
    exact wordOfXYZ_and_maskWZ _ _ _ _
  | skpVx | sknpVx | ldVxDT | ldVxK | ldDTVx | ldSTVx | addIVx | ldFVx | ldBVx | ldMemIVx | ldVxMemI =>
    exact wordOfXNN_and_maskWNN _ _ _

section Masks
variable {word : Word} (w z : Nibble) (nn : Byte)

/-- The mask `0xF000` tests the field `w`. -/
theorem fieldW_of_and_maskW (h : word &&& 0xF000#16 = wordOfNNN w 0) : fieldW word = w := by
  rw [and_maskW] at h
  simpa using congrArg fieldW h

theorem wordOfNNN_of_and_maskW (h : word &&& 0xF000#16 = wordOfNNN w 0) : wordOfNNN w (fieldNNN word) = word :=
  wordOfNNN_of_fieldW (fieldW_of_and_maskW w h)

theorem wordOfXNN_of_and_maskW (h : word &&& 0xF000#16 = wordOfNNN w 0) :
    wordOfXNN w (regOfNibble (fieldX word)) (fieldNN word) = word :=
  wordOfXNN_of_fieldW (fieldW_of_and_maskW w h)

theorem wordOfXYZ_of_and_maskW (h : word &&& 0xF000#16 = wordOfNNN w 0) :
    wordOfXYZ w (regOfNibble (fieldX word)) (regOfNibble (fieldY word)) (fieldZ word) = word :=
  wordOfXYZ_of_fields (fieldW_of_and_maskW w h) rfl

/-- The mask `0xF00F` tests the fields `w` and `z`. -/
theorem wordOfXYZ_of_and_maskWZ (h : word &&& 0xF00F#16 = wordOfXYZ w 0 0 z) :
    wordOfXYZ w (regOfNibble (fieldX word)) (regOfNibble (fieldY word)) z = word := by
  rw [← wordOfXYZ_fields word, wordOfXYZ_and_maskWZ] at h
  exact wordOfXYZ_of_fields (by simpa using congrArg fieldW h) (by simpa using congrArg fieldZ h)

/-- The mask `0xF0FF` tests the fields `w` and `nn`. -/
theorem wordOfXNN_of_and_maskWNN (h : word &&& 0xF0FF#16 = wordOfXNN w 0 nn) :
    wordOfXNN w (regOfNibble (fieldX word)) nn = word := by
  rw [← wordOfXNN_fields word, wordOfXNN_and_maskWNN] at h
  exact wordOfXNN_of_fields (by simpa using congrArg fieldW h) (by simpa using congrArg fieldNN h)

end Masks

/-- A row selects no word but the encodings of its instructions: the mask tests every field that is not an operand. -/
theorem exists_encode_of_row_selects {i : Instr} {word : Word} (h : i.row.selects word = true) :
    ∃ j : Instr, encode j = word ∧ j.row = i.row := by
  rw [row_selects_iff] at h
  cases i with
  | cls => exact ⟨.cls, h.symm.trans (BitVec.and_allOnes ..), rfl⟩
  | ret => exact ⟨.ret, h.symm.trans (BitVec.and_allOnes ..), rfl⟩
  | jpAddr => exact ⟨.jpAddr _, wordOfNNN_of_and_maskW 0x1#4 h, rfl⟩
  | callAddr => exact ⟨.callAddr _, wordOfNNN_of_and_maskW 0x2#4 h, rfl⟩
  | seVxByte => exact ⟨.seVxByte _ _, wordOfXNN_of_and_maskW 0x3#4 h, rfl⟩
  | sneVxByte => exact ⟨.sneVxByte _ _, wordOfXNN_of_and_maskW 0x4#4 h, rfl⟩
  | seVxVy => exact ⟨.seVxVy _ _, wordOfXYZ_of_and_maskWZ 0x5#4 0x0#4 h, rfl⟩
  | ldVxByte => exact ⟨.ldVxByte _ _, wordOfXNN_of_and_maskW 0x6#4 h, rfl⟩
  | addVxByte => exact ⟨.addVxByte _ _, wordOfXNN_of_and_maskW 0x7#4 h, rfl⟩
  | ldVxVy => exact ⟨.ldVxVy _ _, wordOfXYZ_of_and_maskWZ 0x8#4 0x0#4 h, rfl⟩
  | orVxVy => exact ⟨.orVxVy _ _, wordOfXYZ_of_and_maskWZ 0x8#4 0x1#4 h, rfl⟩
  | andVxVy => exact ⟨.andVxVy _ _, wordOfXYZ_of_and_maskWZ 0x8#4 0x2#4 h, rfl⟩
  | xorVxVy => exact ⟨.xorVxVy _ _, wordOfXYZ_of_and_maskWZ 0x8#4 0x3#4 h, rfl⟩
  | addVxVy => exact ⟨.addVxVy _ _, wordOfXYZ_of_and_maskWZ 0x8#4 0x4#4 h, rfl⟩
  | subVxVy => exact ⟨.subVxVy _ _, wordOfXYZ_of_and_maskWZ 0x8#4 0x5#4 h, rfl⟩
  | shrVxVy => exact ⟨.shrVxVy _ _, wordOfXYZ_of_and_maskWZ 0x8#4 0x6#4 h, rfl⟩
  | subnVxVy => exact ⟨.subnVxVy _ _, wordOfXYZ_of_and_maskWZ 0x8#4 0x7#4 h, rfl⟩
  | shlVxVy => exact ⟨.shlVxVy _ _, wordOfXYZ_of_and_maskWZ 0x8#4 0xE#4 h, rfl⟩
  | sneVxVy => exact ⟨.sneVxVy _ _, wordOfXYZ_of_and_maskWZ 0x9#4 0x0#4 h, rfl⟩
  | ldIAddr => exact ⟨.ldIAddr _, wordOfNNN_of_and_maskW 0xA#4 h, rfl⟩
  | jpV0Addr => exact ⟨.jpV0Addr _, wordOfNNN_of_and_maskW 0xB#4 h, rfl⟩
  | rndVxByte => exact ⟨.rndVxByte _ _, wordOfXNN_of_and_maskW 0xC#4 h, rfl⟩
  | drwVxVyNibble => exact ⟨.drwVxVyNibble _ _ _, wordOfXYZ_of_and_maskW 0xD#4 h, rfl⟩
  | skpVx => exact ⟨.skpVx _, wordOfXNN_of_and_maskWNN 0xE#4 0x9E#8 h, rfl⟩
  | sknpVx => exact ⟨.sknpVx _, wordOfXNN_of_and_maskWNN 0xE#4 0xA1#8 h, rfl⟩
  | ldVxDT => exact ⟨.ldVxDT _, wordOfXNN_of_and_maskWNN 0xF#4 0x07#8 h, rfl⟩
  | ldVxK => exact ⟨.ldVxK _, wordOfXNN_of_and_maskWNN 0xF#4 0x0A#8 h, rfl⟩
  | ldDTVx => exact ⟨.ldDTVx _, wordOfXNN_of_and_maskWNN 0xF#4 0x15#8 h, rfl⟩
  | ldSTVx => exact ⟨.ldSTVx _, wordOfXNN_of_and_maskWNN 0xF#4 0x18#8 h, rfl⟩
  | addIVx => exact ⟨.addIVx _, wordOfXNN_of_and_maskWNN 0xF#4 0x1E#8 h, rfl⟩
  | ldFVx => exact ⟨.ldFVx _, wordOfXNN_of_and_maskWNN 0xF#4 0x29#8 h, rfl⟩
  | ldBVx => exact ⟨.ldBVx _, wordOfXNN_of_and_maskWNN 0xF#4 0x33#8 h, rfl⟩
  | ldMemIVx => exact ⟨.ldMemIVx _, wordOfXNN_of_and_maskWNN 0xF#4 0x55#8 h, rfl⟩
  | ldVxMemI => exact ⟨.ldVxMemI _, wordOfXNN_of_and_maskWNN 0xF#4 0x65#8 h, rfl⟩

/-- A row selects the encodings of its instructions and no other word. -/
theorem row_selects_iff_exists_encode (i : Instr) (word : Word) :
    i.row.selects word = true ↔ ∃ j : Instr, encode j = word ∧ j.row = i.row := by
  refine ⟨exists_encode_of_row_selects, ?_⟩
  rintro ⟨j, rfl, hj⟩
  exact hj ▸ row_selects_encode j

/-- Every instruction's row is one of the table's. -/
theorem row_mem_opcodeTable (i : Instr) : i.row ∈ opcodeTable := by
  cases i <;> simp [opcodeTable, tableInstrs, Instr.row]

/-- Some row of the table selects the words of instructions, and no row another word. -/
theorem exists_row_selects_iff (word : Word) :
    (∃ r ∈ opcodeTable, r.selects word = true) ↔ ∃ i, encode i = word := by
  constructor
  · rintro ⟨r, hr, h⟩
    obtain ⟨i, -, rfl⟩ := List.mem_map.1 hr
    obtain ⟨j, hj, -⟩ := (row_selects_iff_exists_encode i word).1 h
    exact ⟨j, hj⟩
  · rintro ⟨i, rfl⟩
    exact ⟨i.row, row_mem_opcodeTable i, row_selects_encode i⟩

/-- Settles O3: a row selects the encodings of its instructions, and the Unknown words are those that are no
encoding. -/
theorem decodeAgreesWithTable : Obligations.DecodeAgreesWithTable := by
  unfold Obligations.DecodeAgreesWithTable
  intro hi lo
  constructor
  · intro i h
    rw [← encode_of_decodeWord h]
    exact row_selects_encode i
  · have hno := not_congr (exists_row_selects_iff (wordOfBytes hi lo))
    push Not at hno
    simpa [decode, decodeWord_unknown_iff_ne_encode] using hno.symm

/-- Two rows that select one word are the same row: the word is the encoding of one instruction. -/
theorem row_eq_of_selects_selects {r q : Row} {word : Word} (hr : r ∈ opcodeTable) (hq : q ∈ opcodeTable)
    (hrw : r.selects word = true) (hqw : q.selects word = true) : r = q := by
  obtain ⟨i, -, rfl⟩ := List.mem_map.1 hr
  obtain ⟨j, -, rfl⟩ := List.mem_map.1 hq
  obtain ⟨i', hiw, hi⟩ := (row_selects_iff_exists_encode i word).1 hrw
  obtain ⟨j', hjw, hj⟩ := (row_selects_iff_exists_encode j word).1 hqw
  have hij : i' = j' := Decoded.instr.inj <| by rw [← decodeWord_encode i', ← decodeWord_encode j', hiw, hjw]
  rw [← hi, ← hj, hij]

/-- Settles O4: the rows are 34 different ones, and different rows select no common word. -/
theorem tableRowsDisjoint : Obligations.TableRowsDisjoint := by
  unfold Obligations.TableRowsDisjoint
  refine ⟨rfl, fun word => ?_⟩
  have hnodup : opcodeTable.Nodup := by decide
  refine hnodup.imp_of_mem ?_
  rintro r q hr hq hne ⟨hrw, hqw⟩
  exact hne (row_eq_of_selects_selects hr hq hrw hqw)

/-! ## The Unknown words -/

/-- The groups 5 and 9 hold an instruction for one `z` alone (R76). -/
theorem ite_instr_unknown_iff (c : Prop) [Decidable c] (i : Instr) (group : Unknown) :
    (∃ why, (if c then Decoded.instr i else .unknown group) = .unknown why) ↔ ¬c := by
  split <;> simp_all

/-- The sixteen values of a nibble. -/
theorem nibble_cases : ∀ w : Nibble, w = 0x0#4 ∨ w = 0x1#4 ∨ w = 0x2#4 ∨ w = 0x3#4 ∨ w = 0x4#4 ∨ w = 0x5#4 ∨
    w = 0x6#4 ∨ w = 0x7#4 ∨ w = 0x8#4 ∨ w = 0x9#4 ∨ w = 0xA#4 ∨ w = 0xB#4 ∨ w = 0xC#4 ∨ w = 0xD#4 ∨ w = 0xE#4 ∨
    w = 0xF#4 := by
  decide

/-- The Unknown words, group by group (R75 to R80). -/
theorem decodeWord_unknown (word : Word) :
    (∃ why, decodeWord word = .unknown why) ↔
      (fieldW word = 0x0#4 ∧ ∃ why, decodeGroup0 word = .unknown why) ∨
      (fieldW word = 0x5#4 ∧ fieldZ word ≠ 0x0#4) ∨
      (fieldW word = 0x8#4 ∧
        ∃ why, decodeGroup8 (regOfNibble (fieldX word)) (regOfNibble (fieldY word)) (fieldZ word) = .unknown why) ∨
      (fieldW word = 0x9#4 ∧ fieldZ word ≠ 0x0#4) ∨
      (fieldW word = 0xE#4 ∧ ∃ why, decodeGroupE (regOfNibble (fieldX word)) (fieldNN word) = .unknown why) ∨
      (fieldW word = 0xF#4 ∧ ∃ why, decodeGroupF (regOfNibble (fieldX word)) (fieldNN word) = .unknown why) := by
  unfold decodeWord
  generalize fieldW word = w
  rcases nibble_cases w with rfl | rfl | rfl | rfl | rfl | rfl | rfl | rfl | rfl | rfl | rfl | rfl | rfl | rfl | rfl |
    rfl <;>
    simp [ite_instr_unknown_iff]

theorem toNat_fieldW_wordOfBytes (hi lo : Byte) : (fieldW (wordOfBytes hi lo)).toNat = hi.toNat / 16 := by
  rw [toNat_fieldW, toNat_wordOfBytes]
  omega

theorem toNat_fieldZ_wordOfBytes (hi lo : Byte) : (fieldZ (wordOfBytes hi lo)).toNat = lo.toNat % 16 := by
  rw [toNat_fieldZ, toNat_wordOfBytes]
  omega

@[simp] theorem fieldNN_wordOfBytes (hi lo : Byte) : fieldNN (wordOfBytes hi lo) = lo := by
  apply BitVec.eq_of_toNat_eq
  rw [toNat_fieldNN, toNat_wordOfBytes]
  omega

theorem wordOfBytes_eq_iff (hi lo : Byte) (word : Word) :
    wordOfBytes hi lo = word ↔ hi.toNat * 256 + lo.toNat = word.toNat := by
  rw [BitVec.toNat_eq, toNat_wordOfBytes]

/-- Settles O7: the Unknown words are those of the six groups with sub-keys; their fields are nibbles of the bytes. -/
theorem unknownWordsAreTheTable : Obligations.UnknownWordsAreTheTable := by
  unfold Obligations.UnknownWordsAreTheTable
  intro hi lo
  have hgroup0 : (wordOfBytes hi lo ≠ 0x00E0#16 ∧ wordOfBytes hi lo ≠ 0x00EE#16) ↔
      ¬(hi.toNat = 0 ∧ (lo.toNat = 0xE0 ∨ lo.toNat = 0xEE)) := by
    simp only [ne_eq, wordOfBytes_eq_iff, BitVec.toNat_ofNat]
    omega
  rw [decode, decodeWord_unknown, decodeGroup0_unknown, hgroup0, decodeGroup8_unknown, decodeGroupE_unknown,
    decodeGroupF_unknown, fieldNN_wordOfBytes]
  simp [BitVec.toNat_eq, toNat_fieldW_wordOfBytes, toNat_fieldZ_wordOfBytes]

/-- Settles O9: the decoder evaluates the eighteen words. -/
theorem sampleWordsDecode : Obligations.SampleWordsDecode := by
  unfold Obligations.SampleWordsDecode
  decide

end Sys2Proof
end

section
/-! The writes of single instructions: the stack, the program counter, registers, timers, the index register and memory,
each with what it leaves unchanged (41_control_flow.md, 42_alu.md, 44_memory_timer_input.md). -/

namespace Sys2Proof.Machine

/-- What is known of an instruction's next state holds of the state it answers. -/
theorem Completes.of_exec {i : Instr} {s t : State} {w : Writes} {P : State → Prop} (h : Completes i s w P)
    (hexec : exec i s = .next t) : P t ∧ Keeps w s t := by
  obtain ⟨t', hexec', hP, hkeeps⟩ := h
  obtain rfl := Host.Outcome.next.inj (hexec'.symm.trans hexec)
  exact ⟨hP, hkeeps⟩

/-! ## Return and call -/

section Stack
variable {s : State} {a : Word} {nnn : Addr}

theorem exec_ret_of_getLast? (h : s.stack.getLast? = some a) :
    exec .ret s = .next { s with stack := s.stack.dropLast, pc := a } := by
  have hpop := (pop_eq_some s _ a).2 ⟨h, rfl⟩
  simp only [exec, execRet, hpop, complete, advanced_jump]

theorem exec_ret_of_nil (h : s.stack = []) :
    exec .ret s = .next (s.commit .stackUnderflow (some (encode .ret)) none) := by
  simp only [exec, execRet, (pop_eq_none s).2 h, complete, advanced_fault]

theorem exec_callAddr_of_lt (h : s.stack.length < 16) :
    exec (.callAddr nnn) s = .next { s with stack := s.stack ++ [s.pc + 2#16], pc := addrWord nnn } := by
  have hpush := (push_eq_some s _ (s.pc + 2#16)).2 ⟨h, rfl⟩
  simp only [exec, execCallAddr, hpush, complete, advanced_jump]

theorem exec_callAddr_of_le (h : 16 ≤ s.stack.length) :
    exec (.callAddr nnn) s = .next (s.commit .stackOverflow (some (encode (.callAddr nnn))) none) := by
  simp only [exec, execCallAddr, (push_eq_none s (s.pc + 2#16)).2 h, complete, advanced_fault]

/-- A write of the stack and `pc` leaves everything else as it was. -/
theorem keeps_setStack (s : State) (stack : List Word) (p : Word) :
    Keeps { stack := true } s { s with stack := stack, pc := p } where
  regs _ _ := rfl
  index _ := rfl
  delay _ := rfl
  sound _ := rfl
  stack h := by cases h
  display _ := rfl
  status _ := rfl
  bytes _ _ := rfl
  variant := rfl
  params := rfl
  inputs := rfl
  schedule := rfl
  draws := rfl

/-- A return takes the last address of the stack into `pc` (R120). -/
theorem completes_ret (h : s.stack.getLast? = some a) :
    Completes .ret s { stack := true } fun t => t.pc = a ∧ t.stack = s.stack.dropLast :=
  ⟨_, exec_ret_of_getLast? h, ⟨rfl, rfl⟩, keeps_setStack s _ _⟩

/-- A call pushes `pc + 2` and jumps (R122). -/
theorem completes_callAddr (h : s.stack.length < 16) :
    Completes (.callAddr nnn) s { stack := true } fun t =>
      t.pc.toNat = nnn.toNat ∧ t.stack = s.stack ++ [s.pc + 2#16] :=
  ⟨_, exec_callAddr_of_lt h, ⟨toNat_addrWord nnn, rfl⟩, keeps_setStack s _ _⟩

end Stack

/-- Settles O23: a stack with a last address is popped, and an empty one faults. -/
theorem returnPopsOrUnderflows : Obligations.ReturnPopsOrUnderflows := by
  unfold Obligations.ReturnPopsOrUnderflows
  refine ⟨encoded_iff.2 (by decide), fun s rest a h => ?_, fun s h => exec_ret_of_nil h⟩
  refine (completes_ret (a := a) (by rw [h, List.getLast?_concat])).imp ?_
  rintro t ⟨hpc, hstack⟩
  exact ⟨hpc, by rw [hstack, h, List.dropLast_concat]⟩

/-- Settles O24: the word is `2nnn`; a stack below 16 entries takes `pc + 2`, and a full one faults. -/
theorem callPushesOrOverflows : Obligations.CallPushesOrOverflows := by
  unfold Obligations.CallPushesOrOverflows
  intro s nnn
  exact ⟨encoded_iff.2 (wordOfNNN_and_maskW 0x2#4 nnn), completes_callAddr, exec_callAddr_of_le⟩

/-- Settles O25: the call leaves `pc + 2` on top of the stack, and the return pops it. -/
theorem callThenReturn : Obligations.CallThenReturn := by
  unfold Obligations.CallThenReturn
  intro s t u nnn hdepth hcall hstack
  obtain rfl := Host.Outcome.next.inj ((exec_callAddr_of_lt hdepth).symm.trans hcall)
  have htop : u.stack.getLast? = some (s.pc + 2#16) := by rw [hstack, List.getLast?_concat]
  obtain ⟨v, hexec, ⟨hpc, hpop⟩, -⟩ := completes_ret htop
  exact ⟨v, hexec, hpc, by rw [hpop, hstack, List.dropLast_concat]⟩

/-! ## Jumps and skips -/

/-- The two 16-bit summands of the indexed jump are below `2^12` and `2^8`, so the sum does not wrap (R127). -/
theorem toNat_indexedTarget (s : State) (nnn : Addr) :
    (s.indexedTarget nnn).toNat = nnn.toNat + (s.reg 0).toNat := by
  rw [State.indexedTarget, BitVec.toNat_add, toNat_addrWord, BitVec.toNat_setWidth]
  omega

/-- Settles O29: the word is `Bnnn`, and the jump's target is the unmasked sum. -/
theorem indexedJump : Obligations.IndexedJump := by
  unfold Obligations.IndexedJump
  intro s nnn
  refine ⟨encoded_iff.2 (wordOfNNN_and_maskW 0xB#4 nnn), (completes_of_exec_pc rfl).imp ?_⟩
  rintro t hpc
  rw [hpc, toNat_indexedTarget]

/-- A body that is a skip on an answer moves `pc` by 4 or by 2 and writes nothing else (R128). -/
theorem completes_of_exec_skipIf_bool {i : Instr} {s : State} {b : Bool} (h : exec i s = complete i s s (skipIf b)) :
    Completes i s {} fun t => t.pc = if b then s.pc + 4#16 else s.pc + 2#16 :=
  completes_of_exec_pc (h.trans (complete_skipIf i s s b))

/-- The keypad's answer: for a key the held one, above 0xF the draw (R202). -/
theorem keyHeld_eq {s : State} {v : Byte} {answer : Bool}
    (h : (v.toNat ≤ 0xF ∧ answer = s.inputs.held.getLsbD v.toNat) ∨ (0xF < v.toNat ∧ answer = s.inputs.heldOor)) :
    s.keyHeld v = answer := by
  unfold State.keyHeld
  rcases h with ⟨hv, rfl⟩ | ⟨hv, rfl⟩
  · rw [if_pos hv]
  · rw [if_neg (Nat.not_le.2 hv)]

/-- Settles O53: the words are `Ex9E` and `ExA1`, and both bodies are a skip on the keypad's answer. -/
theorem keySkips : Obligations.KeySkips := by
  unfold Obligations.KeySkips
  intro s x answer
  refine ⟨encoded_iff.2 (wordOfXNN_and_maskWNN 0xE#4 x 0x9E#8), encoded_iff.2 (wordOfXNN_and_maskWNN 0xE#4 x 0xA1#8),
    fun h => ?_⟩
  have hheld := keyHeld_eq h
  constructor
  · refine (completes_of_exec_skipIf_bool rfl).imp fun t hpc => ?_
    rw [hpc, hheld]
  · refine (completes_of_exec_skipIf_bool rfl).imp fun t hpc => ?_
    rw [hpc, hheld]
    cases answer <;> rfl

/-! ## Logic, shifts and the random byte -/

/-- Settles O33: the words are `8xy1` to `8xy3`, and each body writes a bitwise result to `V[x]` and no flag. -/
theorem logicBitByBit : Obligations.LogicBitByBit := by
  unfold Obligations.LogicBitByBit
  intro s x y
  refine ⟨encoded_iff.2 (wordOfXYZ_and_maskWZ 0x8#4 x y 0x1#4), encoded_iff.2 (wordOfXYZ_and_maskWZ 0x8#4 x y 0x2#4),
    encoded_iff.2 (wordOfXYZ_and_maskWZ 0x8#4 x y 0x3#4), ?_, ?_, ?_⟩
  · refine (completes_of_exec_setReg rfl).imp ?_
    rintro t ⟨hx, hpc⟩
    exact ⟨hpc, fun k => by rw [hx, BitVec.getLsbD_or]⟩
  · refine (completes_of_exec_setReg rfl).imp ?_
    rintro t ⟨hx, hpc⟩
    exact ⟨hpc, fun k => by rw [hx, BitVec.getLsbD_and]⟩
  · refine (completes_of_exec_setReg rfl).imp ?_
    rintro t ⟨hx, hpc⟩
    exact ⟨hpc, fun k => by rw [hx, BitVec.getLsbD_xor]⟩

/-- The source of a shift, by the parameter `SHIFT_SOURCE` (D6). -/
theorem shiftOperand_eq {s : State} {x y : Reg} {a : Byte}
    (h : (s.params.shiftSource = .x ∧ a = s.reg x) ∨ (s.params.shiftSource = .y ∧ a = s.reg y)) :
    s.shiftOperand x y = a := by
  rcases h with ⟨hsource, rfl⟩ | ⟨hsource, rfl⟩ <;> rw [State.shiftOperand, hsource]

theorem toNat_shrByte (a : Byte) : (shrByte a).toNat = a.toNat / 2 := by
  rw [shrByte, BitVec.toNat_ofNat]
  omega

theorem toNat_shrFlag (a : Byte) : (shrFlag a).toNat = a.toNat % 2 := by
  rw [shrFlag, BitVec.getLsbD, Nat.toNat_testBit, Nat.pow_zero, Nat.div_one]

theorem toNat_shlByte (a : Byte) : (shlByte a).toNat = 2 * a.toNat % 256 := by
  rw [shlByte, BitVec.toNat_ofNat, Nat.mul_comm]

theorem toNat_shlFlag (a : Byte) : (shlFlag a).toNat = a.toNat / 128 := by
  rw [shlFlag, BitVec.getLsbD, Nat.toNat_testBit]
  omega

/-- Settles O37: the word is `8xy6`, and the body writes half of the source to `V[x]`, then its bit 0 to `VF`. -/
theorem shiftRight : Obligations.ShiftRight := by
  unfold Obligations.ShiftRight
  intro s x y a
  refine ⟨encoded_iff.2 (wordOfXYZ_and_maskWZ 0x8#4 x y 0x6#4), fun h => ?_⟩
  refine (completes_of_exec_setRegFlag rfl).imp ?_
  rw [shiftOperand_eq h]
  rintro t ⟨hx, hflag, hpc⟩
  exact ⟨fun hne => by rw [hx hne, toNat_shrByte], hflag.trans (toNat_shrFlag a), hpc⟩

/-- Settles O38: the word is `8xyE`, and the body writes twice the source to `V[x]`, then its bit 7 to `VF`. -/
theorem shiftLeft : Obligations.ShiftLeft := by
  unfold Obligations.ShiftLeft
  intro s x y a
  refine ⟨encoded_iff.2 (wordOfXYZ_and_maskWZ 0x8#4 x y 0xE#4), fun h => ?_⟩
  refine (completes_of_exec_setRegFlag rfl).imp ?_
  rw [shiftOperand_eq h]
  rintro t ⟨hx, hflag, hpc⟩
  exact ⟨fun hne => by rw [hx hne, toNat_shlByte], hflag.trans (toNat_shlFlag a), hpc⟩

/-- Settles O41: the word is `Cxnn`, and the body writes the masked random byte to `V[x]`. -/
theorem randomMasked : Obligations.RandomMasked := by
  unfold Obligations.RandomMasked
  intro s x nn rnd
  refine ⟨encoded_iff.2 (wordOfXNN_and_maskW 0xC#4 x nn), fun hrnd => (completes_of_exec_setReg rfl).imp ?_⟩
  rintro t ⟨hx, hpc⟩
  exact ⟨hpc, fun k => by rw [hx, BitVec.getLsbD_and, hrnd]⟩

/-! ## Timers, the key wait and the glyph address -/

section Timers
variable {i : Instr} {s : State} {v : Byte} {r : Reg}

/-- A write of the delay timer, followed by the central advance, leaves everything else as it was. -/
theorem keeps_setDelay (s : State) (v : Byte) (p : Word) : Keeps { delay := true } s { s with DT := v, pc := p } where
  regs _ _ := rfl
  index _ := rfl
  delay h := by cases h
  sound _ := rfl
  stack _ := rfl
  display _ := rfl
  status _ := rfl
  bytes _ _ := rfl
  variant := rfl
  params := rfl
  inputs := rfl
  schedule := rfl
  draws := rfl

/-- A write of the sound timer, followed by the central advance, leaves everything else as it was. -/
theorem keeps_setSound (s : State) (v : Byte) (p : Word) : Keeps { sound := true } s { s with ST := v, pc := p } where
  regs _ _ := rfl
  index _ := rfl
  delay _ := rfl
  sound h := by cases h
  stack _ := rfl
  display _ := rfl
  status _ := rfl
  bytes _ _ := rfl
  variant := rfl
  params := rfl
  inputs := rfl
  schedule := rfl
  draws := rfl

/-- A write of `pc` and the status leaves everything else as it was. -/
theorem keeps_setStatus (s : State) (status : Status) (p : Word) :
    Keeps { status := true } s { s with pc := p, status := status } where
  regs _ _ := rfl
  index _ := rfl
  delay _ := rfl
  sound _ := rfl
  stack _ := rfl
  display _ := rfl
  status h := by cases h
  bytes _ _ := rfl
  variant := rfl
  params := rfl
  inputs := rfl
  schedule := rfl
  draws := rfl

/-- A body that writes the delay timer alone. -/
theorem completes_of_exec_setDelay (h : exec i s = complete i s { s with DT := v } .seq) :
    Completes i s { delay := true } fun t => t.DT = v ∧ t.pc = s.pc + 2#16 :=
  ⟨_, h, ⟨rfl, rfl⟩, keeps_setDelay s v _⟩

/-- A body that writes the sound timer alone. -/
theorem completes_of_exec_setSound (h : exec i s = complete i s { s with ST := v } .seq) :
    Completes i s { sound := true } fun t => t.ST = v ∧ t.pc = s.pc + 2#16 :=
  ⟨_, h, ⟨rfl, rfl⟩, keeps_setSound s v _⟩

/-- A body that suspends (R191). -/
theorem completes_of_exec_wait (h : exec i s = complete i s s (.wait r)) :
    Completes i s { status := true } fun t => t.status = .awaitingKey r ∧ t.pc = s.pc :=
  ⟨_, h, ⟨rfl, rfl⟩, keeps_setStatus s _ _⟩

end Timers

/-- Settles O45: the words are `Fx07`, `Fx15` and `Fx18`, and each body writes one register or timer. -/
theorem timerCopies : Obligations.TimerCopies := by
  unfold Obligations.TimerCopies
  intro s x
  exact ⟨encoded_iff.2 (wordOfXNN_and_maskWNN 0xF#4 x 0x07#8), encoded_iff.2 (wordOfXNN_and_maskWNN 0xF#4 x 0x15#8),
    encoded_iff.2 (wordOfXNN_and_maskWNN 0xF#4 x 0x18#8), completes_of_exec_setReg rfl, completes_of_exec_setDelay rfl,
    completes_of_exec_setSound rfl⟩

/-- Settles O46: the word is `Fx0A`, and the body is the wait. -/
theorem keyWaitSuspends : Obligations.KeyWaitSuspends := by
  unfold Obligations.KeyWaitSuspends
  intro s x
  exact ⟨encoded_iff.2 (wordOfXNN_and_maskWNN 0xF#4 x 0x0A#8), completes_of_exec_wait rfl⟩

/-- The font lies below 0x200, so the glyph address does not wrap (R55, R196). -/
theorem toNat_glyphAddr (s : State) (v : Byte) :
    (s.glyphAddr v).toNat = s.params.fontBase.val + 5 * (v.toNat % 16) := by
  have hbase := s.params.fontBase.isLt
  have hnibble : (v &&& 0x0F#8).toNat = v.toNat % 16 := Nat.and_two_pow_sub_one_eq_mod v.toNat 4
  rw [State.glyphAddr, hnibble, BitVec.toNat_ofNat, Config.fontStride]
  omega

/-- Settles O47: the word is `Fx29`, and the body writes the glyph address to `I`. -/
theorem glyphAddress : Obligations.GlyphAddress := by
  unfold Obligations.GlyphAddress
  intro s x
  refine ⟨encoded_iff.2 (wordOfXNN_and_maskWNN 0xF#4 x 0x29#8), (completes_of_exec_setIndex rfl).imp ?_⟩
  rintro t ⟨hindex, hpc⟩
  rw [hindex, toNat_glyphAddr]
  exact ⟨rfl, by omega, hpc⟩

/-! ## Stores and loads at `I` -/

section Guarded
variable {i : Instr} {s : State} {n : Nat} {bs : List Byte} {x : Reg}

/-- A guarded store in range changes the stored bytes alone. -/
theorem completes_of_exec_store (h : exec i s = guarded i s n { s with mem := s.mem.writeBytes s.I.toNat bs })
    (hlen : bs.length = n) (hrange : ¬(0 < n ∧ 4096 ≤ s.I.toNat + n - 1)) :
    Completes i s { base := s.I.toNat, len := n } fun t =>
      t.mem = s.mem.writeBytes s.I.toNat bs ∧ t.pc = s.pc + 2#16 :=
  ⟨_, h.trans (guarded_runs i s _ n hrange), ⟨rfl, rfl⟩, keeps_writeBytes s _ bs n hlen⟩

/-- A block load in range writes its registers alone. -/
theorem completes_ldVxMemI (h : s.I.toNat + x.val < 4096) :
    Completes (.ldVxMemI x) s { regs := (List.finRange 16).filter (· ≤ x) } fun t =>
      (∀ r ≤ x, t.reg r = s.mem.read (s.I.toNat + r.val)) ∧ t.pc = s.pc + 2#16 := by
  refine ⟨_, guarded_runs _ s _ (blockLen x) (by unfold blockLen; omega), ⟨fun r hr => ?_, rfl⟩,
    keeps_loadRegs s _ x⟩
  exact (reg_loadRegs s x r).trans (if_pos hr)

end Guarded

/-- A stored byte, read back from canonical memory. -/
theorem read_writeBytes_at (bs : List Byte) (m : Memory) (a k : Nat) (hwf : m.wf = true)
    (hrange : a + bs.length ≤ 4096) (hk : k < bs.length) : (m.writeBytes a bs).read (a + k) = bs[k] := by
  rw [read_writeBytes bs m a (a + k) hrange hwf, dif_pos (by omega)]
  simp only [Nat.add_sub_cancel_left]

/-- The three digits of a byte, none of which its 8 bits cut (R197). -/
theorem toNat_getElem_bcdDigits (v : Byte) :
    (bcdDigits v)[0].toNat = v.toNat / 100 ∧ (bcdDigits v)[1].toNat = v.toNat / 10 % 10 ∧
    (bcdDigits v)[2].toNat = v.toNat % 10 := by
  simp only [bcdDigits, List.getElem_cons_zero, List.getElem_cons_succ, BitVec.toNat_ofNat]
  omega

/-- Settles O48: the word is `Fx33`, and the store of the three digits is read back byte by byte. -/
theorem storeDecimalDigits : Obligations.StoreDecimalDigits := by
  unfold Obligations.StoreDecimalDigits
  intro s x
  refine ⟨encoded_iff.2 (wordOfXNN_and_maskWNN 0xF#4 x 0x33#8), fun hrange => ?_⟩
  refine (completes_of_exec_store rfl (bcdDigits_length _) (by omega)).imp ?_
  rintro t ⟨hmem, hpc⟩
  refine ⟨hpc, fun hwf => ?_⟩
  have hread (k : Nat) (hk : k < 3) : t.mem.read (s.I.toNat + k) = (bcdDigits (s.reg x))[k]'hk := by
    rw [hmem]
    exact read_writeBytes_at (bcdDigits (s.reg x)) s.mem s.I.toNat k hwf
      (by rw [bcdDigits_length]; omega) hk
  obtain ⟨h0, h1, h2⟩ := toNat_getElem_bcdDigits (s.reg x)
  exact ⟨(congrArg _ (hread 0 (by decide))).trans h0, (congrArg _ (hread 1 (by decide))).trans h1,
    (congrArg _ (hread 2 (by decide))).trans h2⟩

/-- Settles O49: the word is `Fx55`, and the store of the registers is read back byte by byte. -/
theorem storeRegisters : Obligations.StoreRegisters := by
  unfold Obligations.StoreRegisters
  intro s x
  refine ⟨encoded_iff.2 (wordOfXNN_and_maskWNN 0xF#4 x 0x55#8), fun hrange => ?_⟩
  refine (completes_of_exec_store (n := x.val + 1) rfl (regsUpTo_length s x) (by omega)).imp ?_
  rintro t ⟨hmem, hpc⟩
  refine ⟨hpc, fun hwf r hr => ?_⟩
  have hlen : (s.regsUpTo x).length = x.val + 1 := regsUpTo_length s x
  have hr' : r.val < (s.regsUpTo x).length := hlen ▸ Nat.lt_succ_of_le hr
  rw [hmem, read_writeBytes_at _ s.mem s.I.toNat r.val hwf (by rw [hlen]; omega) hr', regsUpTo_getElem]

/-- Settles O50: the word is `Fx65`, and the body is the block load. -/
theorem loadRegisters : Obligations.LoadRegisters := by
  unfold Obligations.LoadRegisters
  intro s x
  refine ⟨encoded_iff.2 (wordOfXNN_and_maskWNN 0xF#4 x 0x65#8), fun hrange => (completes_ldVxMemI hrange).imp ?_⟩
  rintro t ⟨hregs, hpc⟩
  exact ⟨hpc, hregs⟩

/-- Settles O51: the store leaves `V[r]` at `I + r` and keeps `I`, and the load reads it there. -/
theorem storeThenLoadRegisters : Obligations.StoreThenLoadRegisters := by
  unfold Obligations.StoreThenLoadRegisters
  intro s t u x hwf hrange hstore hmem hindex
  obtain ⟨-, hcompletes⟩ := storeRegisters s x
  obtain ⟨⟨-, hbytes⟩, hkeeps⟩ := (hcompletes hrange).of_exec hstore
  have hI : u.I = s.I := hindex.trans (hkeeps.index rfl)
  obtain ⟨v, hload, ⟨hregs, -⟩, -⟩ := completes_ldVxMemI (s := u) (x := x) (by rw [hI]; exact hrange)
  refine ⟨v, hload, fun r hr => ?_⟩
  rw [hregs r hr, hmem, hI, hbytes hwf r hr]

end Sys2Proof.Machine
end

section
/-! Drawing: the loop over the sprite's bytes against the sprite bit of each pixel (43_display.md R171, R172). -/

namespace Sys2Proof.Machine

/-- The sprite bit of the `z` bytes read at `I` is the one the spec's policy names. -/
theorem bytesBit_readBytes (s : State) (cx cy z row col : Nat) :
    bytesBit (s.mem.readBytes s.I.toNat z) cy cx row col = s.spriteBit cx cy z row col := by
  unfold bytesBit State.spriteBit
  by_cases hz : row - cy < z
  · rw [List.getElem?_eq_getElem (by simpa using hz), readBytes_getElem, Option.getD_some]
    congr 1
    rw [decide_eq_decide]
    omega
  · rw [List.getElem?_eq_none (by simpa using hz), decide_eq_false (p := cy ≤ row ∧ row < cy + z ∧ _) (by omega)]
    simp

section Drawn
variable (s : State) (x y : Reg) (z : Nibble)

/-- The sprite bit a draw XORs into a pixel. -/
def State.drawBit (row col : Nat) : Bool :=
  s.spriteBit (s.reg x).toNat (s.reg y).toNat z.toNat row col

theorem pixel_drawn {row col : Nat} (hr : row < 32) (hc : col < 64) :
    (s.drawn x y z).1.pixel row col = (s.display.pixel row col ^^ s.drawBit x y z row col) := by
  rw [State.drawn, pixel_drawRows _ _ _ _ _ _ hr hc, bytesBit_readBytes, State.drawBit]

/-- A pixel goes from on to off where it was on and its sprite bit is set. -/
theorem hit_drawn : (s.drawn x y z).2 = true ↔
    ∃ row col, row < 32 ∧ col < 64 ∧ s.display.pixel row col = true ∧ (s.drawn x y z).1.pixel row col = false := by
  have hrows : (s.drawn x y z).2 = true ↔
      ∃ row col, row < 32 ∧ col < 64 ∧ s.display.pixel row col = true ∧ s.drawBit x y z row col = true := by
    simp only [State.drawn, hit_drawRows, bytesBit_readBytes, State.drawBit, Bool.false_eq_true, false_or]
  rw [hrows]
  refine exists_congr fun row => exists_congr fun col => and_congr_right fun hr => and_congr_right fun hc =>
    and_congr_right fun hon => ?_
  rw [pixel_drawn s x y z hr hc, hon, Bool.true_xor, Bool.not_eq_false']

/-- A draw in range writes the display and `VF`. -/
theorem completes_draw (h : ¬(0 < z.toNat ∧ 4096 ≤ s.I.toNat + z.toNat - 1)) :
    Completes (.drwVxVyNibble x y z) s { regs := [VF], display := true } fun t =>
      t.display = (s.drawn x y z).1 ∧ t.reg VF = (if (s.drawn x y z).2 then 1#8 else 0#8) ∧ t.pc = s.pc + 2#16 :=
  ⟨_, guarded_runs _ s _ z.toNat h, ⟨rfl, (reg_draw s x y VF z).trans (if_pos rfl), rfl⟩, keeps_draw s _ x y z⟩

end Drawn

/-- Settles O43: the loop XORs each pixel with its sprite bit, and its flag is that of a pixel that goes off. -/
theorem drawXorsGridPixels : Obligations.DrawXorsGridPixels := by
  unfold Obligations.DrawXorsGridPixels
  intro s x y z
  refine ⟨encoded_iff.2 (wordOfXYZ_and_maskW 0xD#4 x y z), fun hrange => (completes_draw s x y z hrange).imp ?_⟩
  rintro t ⟨hdisplay, hflag, hpc⟩
  refine ⟨hpc, fun row col hr hc => ?_, ?_, ?_⟩
  · rw [hdisplay, pixel_drawn s x y z hr hc, State.drawBit]
  · rw [hflag]
    exact (ite_eq_or_eq ..).symm
  · rw [hflag, hdisplay, ← hit_drawn]
    cases (s.drawn x y z).2 <;> decide

/-- The sprite bit of a draw is that of the first, where the registers of its place, `I` and memory are the same. -/
theorem drawBit_of_keeps {s t : State} {x y : Reg} {z : Nibble} (hx : x ≠ VF) (hy : y ≠ VF)
    (h : Keeps { regs := [VF], display := true } s t) (row col : Nat) :
    t.drawBit x y z row col = s.drawBit x y z row col := by
  have hmem (a : Nat) : t.mem.read a = s.mem.read a := h.bytes a (by simp)
  simp only [State.drawBit, State.spriteBit, hmem, h.index rfl, h.regs x (by simpa using hx),
    h.regs y (by simpa using hy)]

/-- Settles O44: the second draw XORs every pixel with the same bit again; a covered pixel goes off in the first draw if
it was on, and in the second if it was off. -/
theorem drawTwiceRestores : Obligations.DrawTwiceRestores := by
  unfold Obligations.DrawTwiceRestores
  intro s t x y z hx hy hrange hdraw
  obtain ⟨-, hfirst⟩ := drawXorsGridPixels s x y z
  obtain ⟨⟨-, hpixel, -, hflag⟩, hkeeps⟩ := (hfirst hrange).of_exec hdraw
  obtain ⟨-, hsecond⟩ := drawXorsGridPixels t x y z
  obtain ⟨u, hu, ⟨-, hpixel', -, hflag'⟩, -⟩ := hsecond (by rw [hkeeps.index rfl]; exact hrange)
  have hrestored (row col : Nat) (hr : row < 32) (hc : col < 64) :
      u.display.pixel row col = s.display.pixel row col := by
    have hbit := drawBit_of_keeps (z := z) hx hy hkeeps row col
    simp only [State.drawBit] at hbit
    rw [hpixel' row col hr hc, hpixel row col hr hc, hbit, Bool.xor_assoc, Bool.xor_self, Bool.xor_false]
  refine ⟨u, hu, display_ext _ _ hrestored, ?_⟩
  rintro ⟨row, col, hr, hc, hset⟩
  have hflips : t.display.pixel row col = !s.display.pixel row col := by
    rw [hpixel row col hr hc, hset, Bool.xor_true]
  cases hon : s.display.pixel row col with
  | true => exact .inl (hflag.2 ⟨row, col, hr, hc, hon, by rw [hflips, hon]; rfl⟩)
  | false =>
    exact .inr (hflag'.2 ⟨row, col, hr, hc, by rw [hflips, hon]; rfl, by rw [hrestored row col hr hc, hon]⟩)

end Sys2Proof.Machine
end

section
/-! Every instruction at once: the fault it takes where it faults, what it writes and how it moves `pc` where it does
not, and what it does not read (10_state.md, 40_step_cycle.md R107 to R109, 60_exceptions.md R220, R221). -/

namespace Sys2Proof.Machine

/-! ## The fault of an instruction -/

/-- The kind of fault an instruction can take (R220). -/
def faultKind : Instr → Fault
  | .ret => .stackUnderflow
  | .callAddr _ => .stackOverflow
  | _ => .memoryOutOfBounds

/-- The data access an instruction checks (R221). -/
def State.faultAccess (s : State) : Instr → Option Access
  | .drwVxVyNibble _ _ z => some ⟨s.I, z.toNat⟩
  | .ldBVx _ => some ⟨s.I, 3⟩
  | .ldMemIVx x => some ⟨s.I, blockLen x⟩
  | .ldVxMemI x => some ⟨s.I, blockLen x⟩
  | _ => none

/-- A block that reaches past memory does so with its last byte. -/
theorem blockLen_out_of_range {base : Nat} {x : Reg} :
    0 < blockLen x ∧ 4096 ≤ base + blockLen x - 1 ↔ 4096 ≤ base + x.val := by
  unfold blockLen
  omega

/-- An instruction that faults takes its fault before any effect. -/
theorem exec_of_faultsIn {i : Instr} {s : State} (h : FaultsIn s i) :
    exec i s = .next (s.commit (faultKind i) (some (encode i)) (s.faultAccess i)) := by
  cases i with
  | ret => exact exec_ret_of_nil h
  | callAddr nnn => exact exec_callAddr_of_le h
  | drwVxVyNibble x y z => exact guarded_faults _ s _ z.toNat h
  | ldBVx x => exact guarded_faults _ s _ 3 ⟨by decide, h⟩
  | ldMemIVx x => exact guarded_faults _ s _ _ (blockLen_out_of_range.2 h)
  | ldVxMemI x => exact guarded_faults _ s _ _ (blockLen_out_of_range.2 h)
  | _ => exact h.elim

/-- Settles O52: each of the four ranges is the one its instruction checks. -/
theorem dataAccessPastMemoryFaults : Obligations.DataAccessPastMemoryFaults := by
  unfold Obligations.DataAccessPastMemoryFaults
  intro s x y z
  refine ⟨fun h => ?_, fun h => ?_, fun h => ?_, fun h => ?_⟩
  · exact exec_of_faultsIn (i := .drwVxVyNibble x y z) h
  · exact exec_of_faultsIn (i := .ldBVx x) h
  · exact exec_of_faultsIn (i := .ldMemIVx x) h
  · exact exec_of_faultsIn (i := .ldVxMemI x) h

/-- An instruction's fault has an access exactly if it is a data fault (R221). -/
theorem faultAccess_eq_none_iff {i : Instr} {s : State} (h : FaultsIn s i) :
    s.faultAccess i = none ↔ faultKind i ≠ .memoryOutOfBounds := by
  cases i with
  | ret | callAddr | drwVxVyNibble | ldBVx | ldMemIVx | ldVxMemI => simp [State.faultAccess, faultKind]
  | _ => exact h.elim

/-! ## The effect of an instruction -/

/-- How an instruction that does not fault moves `pc` (R108). -/
def PcAfter (s t : State) : Instr → Prop
  | .ret => s.stack.getLast? = some t.pc
  | .jpAddr nnn => t.pc.toNat = nnn.toNat
  | .callAddr nnn => t.pc.toNat = nnn.toNat
  | .jpV0Addr nnn => t.pc.toNat = nnn.toNat + (s.reg 0).toNat
  | .ldVxK _ => t.pc = s.pc
  | .seVxByte _ _ | .sneVxByte _ _ | .seVxVy _ _ | .sneVxVy _ _ | .skpVx _ | .sknpVx _ =>
    t.pc = s.pc + 2#16 ∨ t.pc = s.pc + 4#16
  | _ => t.pc = s.pc + 2#16

/-- A skip moves `pc` by 2 or by 4. -/
theorem completes_of_exec_skip {i : Instr} {s : State} {b : Bool} (h : exec i s = complete i s s (skipIf b)) :
    Completes i s {} fun t => t.pc = s.pc + 2#16 ∨ t.pc = s.pc + 4#16 :=
  (completes_of_exec_skipIf_bool h).imp fun _ hpc => hpc ▸ (ite_eq_or_eq ..).symm

/-- A return that does not fault has an address to take. -/
theorem exists_top_of_ret {s : State} (h : ¬FaultsIn s .ret) : ∃ a, s.stack.getLast? = some a :=
  Option.isSome_iff_exists.1 (List.getLast?_isSome.2 h)

/-- An instruction that does not fault completes, writes what the spec lists and moves `pc` as the spec says. -/
theorem exec_completes {i : Instr} {s : State} (h : ¬FaultsIn s i) :
    Completes i s (writesOf s i) fun t => PcAfter s t i := by
  cases i with
  | cls => exact (completes_of_exec_setDisplay rfl).imp fun _ ⟨_, hpc⟩ => hpc
  | ret =>
    obtain ⟨a, ha⟩ := exists_top_of_ret h
    exact (completes_ret ha).imp fun _ ⟨hpc, _⟩ => ha.trans (congrArg some hpc.symm)
  | callAddr => exact (completes_callAddr (Nat.lt_of_not_le h)).imp fun _ ⟨hpc, _⟩ => hpc
  | jpAddr nnn =>
    exact (completes_of_exec_pc rfl).imp fun _ hpc => (congrArg BitVec.toNat hpc).trans (toNat_addrWord nnn)
  | jpV0Addr nnn =>
    exact (completes_of_exec_pc rfl).imp fun _ hpc => (congrArg BitVec.toNat hpc).trans (toNat_indexedTarget s nnn)
  | seVxByte | sneVxByte | seVxVy | sneVxVy | skpVx | sknpVx => exact completes_of_exec_skip rfl
  | ldVxByte | addVxByte | ldVxVy | orVxVy | andVxVy | xorVxVy | rndVxByte | ldVxDT =>
    exact (completes_of_exec_setReg rfl).imp fun _ ⟨_, hpc⟩ => hpc
  | addVxVy | subVxVy | shrVxVy | subnVxVy | shlVxVy =>
    exact (completes_of_exec_setRegFlag rfl).imp fun _ ⟨_, _, hpc⟩ => hpc
  | ldIAddr | addIVx | ldFVx => exact (completes_of_exec_setIndex rfl).imp fun _ ⟨_, hpc⟩ => hpc
  | ldVxK => exact (completes_of_exec_wait rfl).imp fun _ ⟨_, hpc⟩ => hpc
  | ldDTVx => exact (completes_of_exec_setDelay rfl).imp fun _ ⟨_, hpc⟩ => hpc
  | ldSTVx => exact (completes_of_exec_setSound rfl).imp fun _ ⟨_, hpc⟩ => hpc
  | drwVxVyNibble x y z => exact (completes_draw s x y z h).imp fun _ ⟨_, _, hpc⟩ => hpc
  | ldBVx x =>
    exact (completes_of_exec_store rfl (bcdDigits_length _) fun ⟨_, hr⟩ => h hr).imp fun _ ⟨_, hpc⟩ => hpc
  | ldMemIVx x =>
    exact (completes_of_exec_store rfl (regsUpTo_length s x) (mt blockLen_out_of_range.1 h)).imp
      fun _ ⟨_, hpc⟩ => hpc
  | ldVxMemI x => exact (completes_ldVxMemI (Nat.lt_of_not_le h)).imp fun _ ⟨_, hpc⟩ => hpc

/-- Settles O21: `PcAfter` is the clause of each instruction. -/
theorem centralAdvance : Obligations.CentralAdvance := by
  unfold Obligations.CentralAdvance
  intro s t i hexec hf
  obtain ⟨hpc, -⟩ := (exec_completes hf).of_exec hexec
  cases i <;> exact hpc

/-- Settles O56: an instruction completes within its writes, or takes its fault, which writes the status alone. -/
theorem instructionsWriteOnlyTheirOwn : Obligations.InstructionsWriteOnlyTheirOwn := by
  unfold Obligations.InstructionsWriteOnlyTheirOwn
  intro s t i hexec
  refine ⟨fun hf => ((exec_completes hf).of_exec hexec).2, fun hf => ?_⟩
  obtain rfl := Host.Outcome.next.inj ((exec_of_faultsIn hf).symm.trans hexec)
  exact ⟨rfl, keeps_commit s _ _ _⟩

/-- An instruction that neither faults nor waits keeps the status. -/
theorem status_of_exec {i : Instr} {s t : State} (hf : ¬FaultsIn s i) (hi : ∀ x, i ≠ .ldVxK x)
    (hexec : exec i s = .next t) : t.status = s.status := by
  obtain ⟨-, hkeeps⟩ := (exec_completes hf).of_exec hexec
  refine hkeeps.status ?_
  cases i with
  | ldVxK x => exact absurd rfl (hi x)
  | _ => rfl

/-- A fault of a running core's instruction is the one it takes in `exec_of_faultsIn`. -/
theorem faultsIn_of_exec_faulted {i : Instr} {s t : State} {record : FaultRecord} (hs : s.status = .running)
    (hexec : exec i s = .next t) (ht : t.status = .faulted record) :
    FaultsIn s i ∧ t = s.commit (faultKind i) (some (encode i)) (s.faultAccess i) := by
  by_cases hf : FaultsIn s i
  · exact ⟨hf, Host.Outcome.next.inj (hexec.symm.trans (exec_of_faultsIn hf))⟩
  · obtain ⟨t', hexec', hend⟩ := exec_ending i s
    obtain rfl := Host.Outcome.next.inj (hexec'.symm.trans hexec)
    cases hend with
    | completes _ hst => simp [hst, hs] at ht
    | waits x _ hst => simp [hst] at ht
    | faults hi _ _ _ _ => simp [status_of_exec hf hi hexec, hs] at ht

/-- Settles O14: an instruction that faults takes the fault of its kind, and one that does not leaves no fault. -/
theorem faultCauses : Obligations.FaultCauses := by
  unfold Obligations.FaultCauses
  intro s i hs
  obtain ⟨t, hexec, -⟩ := exec_ending i s
  refine ⟨t, hexec, ⟨fun ⟨record, ht⟩ => (faultsIn_of_exec_faulted hs hexec ht).1, fun hf => ?_⟩,
    fun record ht => ?_⟩
  · obtain rfl := Host.Outcome.next.inj ((exec_of_faultsIn hf).symm.trans hexec)
    exact ⟨_, rfl⟩
  · obtain ⟨-, rfl⟩ := faultsIn_of_exec_faulted hs hexec ht
    obtain rfl := Status.faulted.inj ht
    cases i <;> rfl

/-! ## What an instruction does not read -/

/-- An update of parts of the state that the end of an instruction neither reads nor writes: it commutes with the
writes of `pc`, the status and the stack. -/
structure Unread (f : State → State) : Prop where
  pc : ∀ s, (f s).pc = s.pc
  index : ∀ s, (f s).I = s.I
  stack : ∀ s, (f s).stack = s.stack
  setPc : ∀ s p, f { s with pc := p } = { f s with pc := p }
  setStatus : ∀ s p status, f { s with pc := p, status := status } = { f s with pc := p, status := status }
  setStack : ∀ s stack p, f { s with stack := stack, pc := p } = { f s with stack := stack, pc := p }

theorem unread_inputs (inputs : Inputs) : Unread fun s => { s with inputs := inputs } :=
  ⟨fun _ => rfl, fun _ => rfl, fun _ => rfl, fun _ _ => rfl, fun _ _ _ => rfl, fun _ _ _ => rfl⟩

theorem unread_sound (v : Byte) : Unread fun s => { s with ST := v } :=
  ⟨fun _ => rfl, fun _ => rfl, fun _ => rfl, fun _ _ => rfl, fun _ _ _ => rfl, fun _ _ _ => rfl⟩

section Unread
variable {f : State → State} (hf : Unread f) {i : Instr} {s s1 t : State} {a : Advance} {n : Nat}
include hf

/-- A fault commutes with the update. -/
theorem Unread.commit (kind : Fault) (word : Option Word) (access : Option Access) :
    (f s).commit kind word access = f (s.commit kind word access) := by
  rw [State.commit, hf.pc]
  exact (hf.setStatus s s.pc (.faulted ⟨kind, s.pc, word, access⟩)).symm

/-- The central advance commutes with the update. -/
theorem Unread.advanced : advanced i (f s) (f s1) a = f (advanced i s s1 a) := by
  cases a with
  | seq => rw [advanced_seq, hf.pc]; exact (hf.setPc s1 _).symm
  | skip => rw [advanced_skip, hf.pc]; exact (hf.setPc s1 _).symm
  | jump p => exact (hf.setPc s1 p).symm
  | wait r => rw [advanced_wait, hf.pc]; exact (hf.setStatus s1 s.pc _).symm
  | fault kind access => exact hf.commit kind (some (encode i)) access

/-- The end of an instruction commutes with the update. -/
theorem Unread.complete (h : complete i s s1 a = .next t) : complete i (f s) (f s1) a = .next (f t) := by
  obtain rfl := Host.Outcome.next.inj h
  exact congrArg Host.Outcome.next hf.advanced

/-- A guarded body commutes with the update: the check reads `I` alone. -/
theorem Unread.guarded (h : guarded i s n s1 = .next t) : guarded i (f s) n (f s1) = .next (f t) := by
  unfold Machine.guarded at h ⊢
  rw [hf.index]
  split at h
  · rename_i hr
    rw [if_pos hr]
    exact hf.complete h
  · rename_i hr
    rw [if_neg hr]
    exact hf.complete h

/-- A return commutes with the update: it reads the stack and writes the stack and `pc`, or the status. -/
theorem Unread.ret (h : exec .ret s = .next t) : exec .ret (f s) = .next (f t) := by
  have hstack : (f s).stack = s.stack := hf.stack s
  cases htop : s.stack.getLast? with
  | none =>
    have hnil : s.stack = [] := List.getLast?_eq_none_iff.1 htop
    obtain rfl := Host.Outcome.next.inj ((exec_ret_of_nil hnil).symm.trans h)
    rw [exec_ret_of_nil (hstack.trans hnil), hf.commit]
  | some a =>
    obtain rfl := Host.Outcome.next.inj ((exec_ret_of_getLast? htop).symm.trans h)
    rw [exec_ret_of_getLast? (hstack ▸ htop), hstack]
    exact congrArg Host.Outcome.next (hf.setStack s s.stack.dropLast a).symm

/-- A call commutes with the update: it reads `pc` and the stack and writes both, or the status. -/
theorem Unread.callAddr {nnn : Addr} (h : exec (.callAddr nnn) s = .next t) :
    exec (.callAddr nnn) (f s) = .next (f t) := by
  have hstack : (f s).stack = s.stack := hf.stack s
  rcases Nat.lt_or_ge s.stack.length 16 with hlt | hle
  · obtain rfl := Host.Outcome.next.inj ((exec_callAddr_of_lt hlt).symm.trans h)
    rw [exec_callAddr_of_lt (hstack ▸ hlt), hstack, hf.pc]
    exact congrArg Host.Outcome.next (hf.setStack s (s.stack ++ [s.pc + 2#16]) (addrWord nnn)).symm
  · obtain rfl := Host.Outcome.next.inj ((exec_callAddr_of_le hle).symm.trans h)
    rw [exec_callAddr_of_le (hstack ▸ hle), hf.commit]

end Unread

/-- An instruction other than the three readers of the inputs gives the same result whatever they are (R101). -/
theorem exec_setInputs {s t : State} {i : Instr} (inputs : Inputs) (hrnd : ∀ x nn, i ≠ .rndVxByte x nn)
    (hskp : ∀ x, i ≠ .skpVx x) (hsknp : ∀ x, i ≠ .sknpVx x) (h : exec i s = .next t) :
    exec i { s with inputs := inputs } = .next { t with inputs := inputs } := by
  have hu := unread_inputs inputs
  cases i with
  | rndVxByte x nn => exact absurd rfl (hrnd x nn)
  | skpVx x => exact absurd rfl (hskp x)
  | sknpVx x => exact absurd rfl (hsknp x)
  | ret => exact hu.ret h
  | callAddr => exact hu.callAddr h
  | drwVxVyNibble | ldBVx | ldMemIVx | ldVxMemI => exact hu.guarded h
  | _ => exact hu.complete h

/-- An instruction other than `Fx18` gives the same result whatever `ST` is, and keeps it (R28). -/
theorem exec_setSound {s t : State} {i : Instr} (v : Byte) (hi : ∀ x, i ≠ .ldSTVx x) (h : exec i s = .next t) :
    exec i { s with ST := v } = .next { t with ST := v } := by
  have hu := unread_sound v
  cases i with
  | ldSTVx x => exact absurd rfl (hi x)
  | ret => exact hu.ret h
  | callAddr => exact hu.callAddr h
  | drwVxVyNibble | ldBVx | ldMemIVx | ldVxMemI => exact hu.guarded h
  | _ => exact hu.complete h

/-- Settles O57: the updates of the inputs and of `ST` commute with every instruction that does not read or write them,
and `Fx18` overwrites `ST`. -/
theorem inputsAndSoundTimerAreUnread : Obligations.InputsAndSoundTimerAreUnread := by
  unfold Obligations.InputsAndSoundTimerAreUnread
  intro s t i inputs v h
  refine ⟨fun hrnd hskp hsknp => exec_setInputs inputs hrnd hskp hsknp h, fun hi => exec_setSound v hi h, ?_⟩
  rintro x rfl
  exact h

end Sys2Proof.Machine
end

section
/-! The step of the whole machine: what it answers, its faults and the host's transitions, and the invariant every
transition keeps (40_step_cycle.md, 60_exceptions.md, 70_reset_and_hazards.md). -/

namespace Sys2Proof.Machine

/-! ## A step answers, and what it runs -/

theorem runInstr_answers (s : State) : ∃ t, runInstr s = .next t := by
  unfold runInstr
  split
  · exact ⟨_, rfl⟩
  · split
    · exact ⟨_, rfl⟩
    · obtain ⟨t, hexec, -⟩ := exec_ending _ s
      exact ⟨t, hexec⟩

theorem cycle_answers (s : State) : ∃ t, cycle s = .next t := by
  unfold cycle
  split
  · exact ⟨_, rfl⟩
  · exact ⟨_, rfl⟩
  · exact runInstr_answers s

/-- Settles O19: a transition is a cycle, which answers, or an update of the state. -/
theorem stepAlwaysAnswers : Obligations.StepAlwaysAnswers := by
  unfold Obligations.StepAlwaysAnswers
  intro s
  unfold step transition
  split
  · exact cycle_answers _
  · exact cycle_answers _
  · exact ⟨_, rfl⟩
  · exact ⟨_, rfl⟩
  · exact ⟨_, rfl⟩

section Fetched
variable {s p : State} {i : Instr} {why : Unknown} (hp : s.presented = some p) (hs : s.status = .running)
  (hpc : s.pc.toNat + 1 < 4096)
include hp hpc

theorem fetch_presented : p.fetch = some (s.mem.read s.pc.toNat, s.mem.read (s.pc.toNat + 1)) := by
  rw [fetch_eq_some, presented_pc hp, presented_mem hp]
  exact ⟨hpc, rfl, rfl⟩

include hs

/-- A scheduled `Step` of a running core executes what the bytes at `pc` decode to (R102). -/
theorem step_eq_exec (hd : decode (s.mem.read s.pc.toNat) (s.mem.read (s.pc.toNat + 1)) = .instr i) :
    step s = exec i p := by
  simp only [step_eq_runInstr hp hs, runInstr, fetch_presented hp hpc, hd]

/-- A scheduled `Step` of a running core faults on bytes that decode to no instruction (R106). -/
theorem step_eq_unknownOpcode (hd : decode (s.mem.read s.pc.toNat) (s.mem.read (s.pc.toNat + 1)) = .unknown why) :
    step s = .next (p.commit .unknownOpcode
      (some (wordOfBytes (s.mem.read s.pc.toNat) (s.mem.read (s.pc.toNat + 1)))) none) := by
  simp only [step_eq_runInstr hp hs, runInstr, fetch_presented hp hpc, hd]

end Fetched

/-- Settles O10: in both cases the presented state is the one named, and the step executes `i` in it. -/
theorem stepRunsDecodedInstruction : Obligations.StepRunsDecodedInstruction := by
  unfold Obligations.StepRunsDecodedInstruction
  intro s i hs hpc hd
  refine ⟨fun hnil => ?_, fun inputs rest hcons => ?_⟩
  · exact step_eq_exec (p := s.presentFree) (by simp only [State.presented, hnil]) hs hpc hd
  · exact step_eq_exec (p := s.present inputs rest) (by simp only [State.presented, hcons]) hs hpc hd

/-- Settles O12: the step takes UnknownOpcode in the presented state, whose `pc` is that of the start. -/
theorem unknownWordFaults : Obligations.UnknownWordFaults := by
  unfold Obligations.UnknownWordFaults
  intro s p why hp hs hpc hd
  rw [step_eq_unknownOpcode hp hs hpc hd, State.commit, presented_pc hp]

/-! ## Faults -/

/-- The fault a running core's `Step` takes changes the status alone, and its record describes the state (R109, R221). -/
theorem commit_of_runInstr_faulted {s t : State} {record : FaultRecord} (hs : s.status = .running)
    (h : runInstr s = .next t) (ht : t.status = .faulted record) :
    t = { s with status := .faulted record } ∧ record.Describes s := by
  obtain ⟨hf, rfl⟩ | ⟨hi, lo, why, hf, -, rfl⟩ | ⟨hi, lo, i, hf, hd, hexec⟩ := runInstr_cases s t h
  · obtain rfl := Status.faulted.inj ht
    exact ⟨rfl, rfl, by simp, nofun, by simp⟩
  · obtain rfl := Status.faulted.inj ht
    refine ⟨rfl, rfl, by simp, ?_, by simp⟩
    rintro word hword
    exact ⟨hi, lo, hf, Option.some.inj hword⟩
  · obtain ⟨hfaults, rfl⟩ := faultsIn_of_exec_faulted hs hexec ht
    obtain rfl := Status.faulted.inj ht
    refine ⟨rfl, rfl, ?_, ?_, faultAccess_eq_none_iff hfaults⟩
    · cases i <;> simp [faultKind]
    · rintro word hword
      exact ⟨hi, lo, hf, (encodeOfDecode hi lo i hd).symm.trans (Option.some.inj hword)⟩

/-- Settles O13: the presented state keeps `pc` and memory, and the record describes it. -/
theorem faultsArePrecise : Obligations.FaultsArePrecise := by
  unfold Obligations.FaultsArePrecise
  intro s p t record hp hs h ht
  rw [step_eq_runInstr hp hs] at h
  obtain ⟨rfl, hrecord⟩ := commit_of_runInstr_faulted ((presented_status hp).trans hs) h ht
  refine ⟨rfl, hrecord.atPc.trans (presented_pc hp), fun word hword => ?_, hrecord.noWord, hrecord.noAccess⟩
  obtain ⟨hi, lo, hf, rfl⟩ := hrecord.atWord word hword
  obtain ⟨-, rfl, rfl⟩ := (fetch_eq_some p hi lo).1 hf
  rw [presented_pc hp, presented_mem hp]

section Faulted
variable {s t : State} {record : FaultRecord} (hs : s.status = .faulted record)
include hs

/-- A `Step` of a faulted core changes only what the host presents (R103). -/
theorem step_faulted_presented {p : State} (hp : s.presented = some p) : step s = .next p := by
  have hstatus : p.status = .faulted record := (presented_status hp).trans hs
  simp only [step_presented s p hp, cycle, hstatus]

/-- A KeyDown changes nothing of a faulted core (R192). -/
theorem step_faulted_keyDown {k : Nibble} {rest : List Transition} (hk : s.schedule = .keyDown k :: rest) :
    step s = .next (s.setSchedule rest) := by
  rw [step_keyDown hk, keyDown_other _ k (by simp [hs])]

/-- No transition changes a part of a faulted core but the timers. -/
theorem step_faulted_eq (h : step s = .next t) :
    t = { s with DT := t.DT, ST := t.ST, inputs := t.inputs, schedule := t.schedule, draws := t.draws } := by
  obtain ⟨p, hp, -⟩ | ⟨rest, -, rfl⟩ | ⟨k, rest, hk, -⟩ | ⟨k, rest, -, rfl⟩ := step_cases s t h
  · obtain rfl := Host.Outcome.next.inj ((step_faulted_presented hs hp).symm.trans h)
    rw [presented_eq s p hp]
  · rfl
  · obtain rfl := Host.Outcome.next.inj ((step_faulted_keyDown hs hk).symm.trans h)
    rfl
  · rfl

end Faulted

/-- Settles O15: each clause is one transition of a faulted core. -/
theorem faultIsSticky : Obligations.FaultIsSticky := by
  unfold Obligations.FaultIsSticky
  intro s record hs
  obtain ⟨t, h⟩ := stepAlwaysAnswers s
  refine ⟨t, h, step_faulted_eq hs h, fun p hp => ?_, fun k rest hk => ?_, fun rest htick => ?_⟩
  · obtain rfl := Host.Outcome.next.inj ((step_faulted_presented hs hp).symm.trans h)
    exact ⟨rfl, (stepResult_eq_fault p record).2 ((presented_status hp).trans hs)⟩
  · exact Host.Outcome.next.inj (h.symm.trans (step_faulted_keyDown hs hk))
  · obtain rfl := Host.Outcome.next.inj ((step_tick htick).symm.trans h)
    exact ⟨tickDown_toNat s.DT, tickDown_toNat s.ST⟩

/-! ## Key events and ticks -/

/-- Waking writes the awaited register, `pc` and the status, and leaves everything else as it was. -/
theorem keeps_wake (s : State) (r : Reg) (v : Byte) (p : Word) :
    Keeps { regs := [r], status := true } s { s.setReg r v with pc := p, status := .running } where
  regs q hq := reg_setReg_ne s r q v (by simpa using hq)
  index _ := rfl
  delay _ := rfl
  sound _ := rfl
  stack _ := rfl
  display _ := rfl
  status h := by cases h
  bytes _ _ := rfl
  variant := rfl
  params := rfl
  inputs := rfl
  schedule := rfl
  draws := rfl

/-- Settles O17: KeyDown wakes a waiting core by its one update and changes no other; KeyUp changes nothing. -/
theorem keyEvents : Obligations.KeyEvents := by
  unfold Obligations.KeyEvents
  intro s k rest
  refine ⟨fun hk => ⟨fun r hs => ?_, fun hs => ?_⟩, step_keyUp⟩
  · rw [step_keyDown hk, keyDown_awaiting (s.setSchedule rest) k r hs]
    exact ⟨_, rfl, reg_setReg_self _ r _, rfl, rfl, keeps_wake _ r _ _⟩
  · rw [step_keyDown hk, keyDown_other (s.setSchedule rest) k hs]
    rfl

/-- Settles O18: the tick is one update of the timers, in every status. -/
theorem tickDecrementsTimers : Obligations.TickDecrementsTimers := by
  unfold Obligations.TickDecrementsTimers
  intro s rest htick
  exact ⟨_, step_tick htick, tickDown_toNat s.DT, tickDown_toNat s.ST, rfl⟩

/-! ## The invariant -/

/-- The invariant reads memory, the stack, `pc` and the status alone. -/
theorem State.Inv.congr {s t : State} (h : s.Inv) (hmem : t.mem = s.mem) (hstack : t.stack = s.stack)
    (hpc : t.pc = s.pc) (hstatus : t.status = s.status) : t.Inv := by
  have hfetch : t.fetch = s.fetch := by simp only [State.fetch, hmem, hpc]
  refine ⟨by rw [hmem]; exact h.memory, by rw [hstack]; exact h.depth, by rw [hstack]; exact h.returns,
    by rw [hpc]; exact h.pcBound, fun r hr => ?_, fun record hr => ?_⟩
  · rw [hfetch]
    exact h.waiting r (hstatus.symm.trans hr)
  · obtain ⟨atPc, noWord, atWord, noAccess⟩ := h.faulted record (hstatus.symm.trans hr)
    exact ⟨atPc.trans hpc.symm, noWord, by rwa [hfetch], noAccess⟩

/-- The invariant of a running core says nothing of waits and faults. -/
theorem inv_of_running {s : State} (hs : s.status = .running) (hmem : s.mem.wf = true)
    (hdepth : s.stack.length ≤ 16) (hreturns : ∀ a ∈ s.stack, a.toNat ≤ 0x1000) (hpc : s.pc.toNat ≤ 0x10FE) :
    s.Inv :=
  ⟨hmem, hdepth, hreturns, hpc, by simp [hs], by simp [hs]⟩

/-- A fault that describes the state keeps the invariant. -/
theorem State.Inv.setFaulted {s : State} (h : s.Inv) {record : FaultRecord} (hrecord : record.Describes s) :
    State.Inv { s with status := .faulted record } := by
  refine ⟨h.memory, h.depth, h.returns, h.pcBound, nofun, fun record' hr => ?_⟩
  obtain rfl := Status.faulted.inj hr
  obtain ⟨atPc, noWord, atWord, noAccess⟩ := hrecord
  exact ⟨atPc, noWord, atWord, noAccess⟩

/-- The central advance keeps the canonical form of memory, if the body does. -/
theorem wf_of_complete {i : Instr} {s s1 t : State} {a : Advance} (h : complete i s s1 a = .next t)
    (hwf : s.mem.wf = true) (h1 : s1.mem.wf = true) : t.mem.wf = true := by
  obtain rfl := Host.Outcome.next.inj h
  cases a with
  | fault => exact hwf
  | _ => exact h1

/-- A guarded body keeps the canonical form of memory, if it does so where its range lies in memory. -/
theorem wf_of_guarded {i : Instr} {s s1 t : State} {n : Nat} (h : guarded i s n s1 = .next t)
    (hwf : s.mem.wf = true) (h1 : ¬(0 < n ∧ 4096 ≤ s.I.toNat + n - 1) → s1.mem.wf = true) : t.mem.wf = true := by
  obtain ⟨hrange, rfl⟩ | ⟨-, rfl⟩ := guarded_cases i s s1 t n h
  · exact h1 hrange
  · exact hwf

/-- An instruction that does not fault keeps the canonical form of memory: the two stores write in range, and no other
instruction writes memory. -/
theorem wf_of_exec {i : Instr} {s t : State} (hwf : s.mem.wf = true) (hf : ¬FaultsIn s i) (h : exec i s = .next t) :
    t.mem.wf = true := by
  cases i with
  | ldBVx x => exact wf_of_guarded h hwf fun hr => wf_writeBytes _ _ _ (by rw [bcdDigits_length]; omega) hwf
  | ldMemIVx x =>
    refine wf_of_guarded h hwf fun hr => wf_writeBytes _ _ _ ?_ hwf
    rw [blockLen_out_of_range] at hr
    rw [regsUpTo_length, blockLen]
    omega
  | drwVxVyNibble | ldVxMemI => exact wf_of_guarded h hwf fun _ => hwf
  | ret =>
    obtain ⟨a, ha⟩ := exists_top_of_ret hf
    obtain rfl := Host.Outcome.next.inj ((exec_ret_of_getLast? ha).symm.trans h)
    exact hwf
  | callAddr =>
    obtain rfl := Host.Outcome.next.inj ((exec_callAddr_of_lt (Nat.lt_of_not_le hf)).symm.trans h)
    exact hwf
  | _ => exact wf_of_complete h hwf hwf

section Invariant
variable {i : Instr} {s t : State} (hinv : s.Inv) (hpc : s.pc.toNat + 1 < 4096) (hf : ¬FaultsIn s i)
  (hexec : exec i s = .next t)
include hinv hpc hf hexec

/-- A fetched instruction that does not fault keeps the bounds of the stack: a return takes an entry, a call adds `pc + 2`
to a stack that is not full. -/
theorem stack_of_exec : t.stack.length ≤ 16 ∧ ∀ a ∈ t.stack, a.toNat ≤ 0x1000 := by
  obtain ⟨-, hkeeps⟩ := (exec_completes hf).of_exec hexec
  have hdepth : s.stack.length ≤ 16 := hinv.depth
  cases i with
  | ret =>
    obtain ⟨a, ha⟩ := exists_top_of_ret hf
    obtain ⟨⟨-, hstack⟩, -⟩ := (completes_ret ha).of_exec hexec
    rw [hstack, List.length_dropLast]
    exact ⟨by omega, fun b hb => hinv.returns b (List.mem_of_mem_dropLast hb)⟩
  | callAddr =>
    have hlt : s.stack.length < 16 := Nat.lt_of_not_le hf
    obtain ⟨⟨-, hstack⟩, -⟩ := (completes_callAddr hlt).of_exec hexec
    rw [hstack, List.length_append, List.length_singleton]
    refine ⟨hlt, fun b hb => ?_⟩
    rcases List.mem_append.1 hb with hb | hb
    · exact hinv.returns b hb
    · rw [List.mem_singleton.1 hb, BitVec.toNat_add, BitVec.toNat_ofNat]
      omega
  | _ =>
    rw [hkeeps.stack rfl]
    exact ⟨hdepth, hinv.returns⟩

/-- A fetched instruction that does not fault keeps the bound of `pc`: the largest target is that of `Bnnn`. -/
theorem pc_of_exec : t.pc.toNat ≤ 0x10FE := by
  obtain ⟨hafter, -⟩ := (exec_completes hf).of_exec hexec
  have hseq : (s.pc + 2#16).toNat ≤ 0x10FE := by rw [BitVec.toNat_add, BitVec.toNat_ofNat]; omega
  have hskip : (s.pc + 4#16).toNat ≤ 0x10FE := by rw [BitVec.toNat_add, BitVec.toNat_ofNat]; omega
  cases i with
  | ret =>
    have := hinv.returns t.pc (List.mem_of_getLast? hafter)
    omega
  | jpAddr nnn | callAddr nnn =>
    have hnnn := nnn.isLt
    have hpc' : t.pc.toNat = nnn.toNat := hafter
    omega
  | jpV0Addr nnn =>
    have hnnn := nnn.isLt
    have hv := (s.reg 0).isLt
    have hpc' : t.pc.toNat = nnn.toNat + (s.reg 0).toNat := hafter
    omega
  | ldVxK => rw [show t.pc = s.pc from hafter]; omega
  | seVxByte | sneVxByte | seVxVy | sneVxVy | skpVx | sknpVx =>
    rcases hafter with h | h <;> rw [h] <;> assumption
  | _ => rw [show t.pc = s.pc + 2#16 from hafter]; exact hseq

end Invariant

/-- A fetched instruction that does not fault keeps the invariant. -/
theorem State.Inv.exec {i : Instr} {s t : State} {hi lo : Byte} (hinv : s.Inv) (hs : s.status = .running)
    (hfetch : s.fetch = some (hi, lo)) (hd : decode hi lo = .instr i) (hf : ¬FaultsIn s i)
    (hexec : exec i s = .next t) : t.Inv := by
  by_cases hwait : ∃ x, i = .ldVxK x
  · obtain ⟨x, rfl⟩ := hwait
    obtain rfl := Host.Outcome.next.inj hexec
    refine ⟨hinv.memory, hinv.depth, hinv.returns, hinv.pcBound, fun r hr => ?_, nofun⟩
    obtain rfl := Status.awaitingKey.inj hr
    exact ⟨hi, lo, hfetch, hd⟩
  · obtain ⟨hpc, -, -⟩ := (fetch_eq_some s hi lo).1 hfetch
    obtain ⟨hdepth, hreturns⟩ := stack_of_exec hinv hpc hf hexec
    exact inv_of_running ((status_of_exec hf (not_exists.1 hwait) hexec).trans hs) (wf_of_exec hinv.memory hf hexec)
      hdepth hreturns (pc_of_exec hinv hpc hf hexec)

/-- The `Step` of a running core keeps the invariant: its fault describes the state, or its instruction keeps it. -/
theorem State.Inv.runInstr {s t : State} (hinv : s.Inv) (hs : s.status = .running) (h : runInstr s = .next t) :
    t.Inv := by
  by_cases hfault : ∃ record, t.status = .faulted record
  · obtain ⟨record, ht⟩ := hfault
    obtain ⟨rfl, hrecord⟩ := commit_of_runInstr_faulted hs h ht
    exact hinv.setFaulted hrecord
  · obtain ⟨-, rfl⟩ | ⟨hi, lo, why, -, -, rfl⟩ | ⟨hi, lo, i, hfetch, hd, hexec⟩ := runInstr_cases s t h
    · exact absurd ⟨_, rfl⟩ hfault
    · exact absurd ⟨_, rfl⟩ hfault
    · refine hinv.exec hs hfetch hd (fun hf => hfault ?_) hexec
      obtain rfl := Host.Outcome.next.inj ((exec_of_faultsIn hf).symm.trans hexec)
      exact ⟨_, rfl⟩

/-- A KeyDown keeps the invariant: a core that wakes stood at an `Fx0A` that was fetched, so `pc + 2` is at most
0x1000. -/
theorem State.Inv.keyDown {s : State} (hinv : s.Inv) (k : Nibble) : (s.keyDown k).Inv := by
  by_cases hwait : ∃ r, s.status = .awaitingKey r
  · obtain ⟨r, hr⟩ := hwait
    obtain ⟨hi, lo, hfetch, -⟩ := hinv.waiting r hr
    obtain ⟨hpc, -, -⟩ := (fetch_eq_some s hi lo).1 hfetch
    have hnext : (s.pc + 2#16).toNat ≤ 0x10FE := by rw [BitVec.toNat_add, BitVec.toNat_ofNat]; omega
    rw [keyDown_awaiting s k r hr]
    exact inv_of_running rfl hinv.memory hinv.depth hinv.returns hnext
  · rw [keyDown_other s k (not_exists.1 hwait)]
    exact hinv

/-- Settles O54: presenting inputs and taking an entry off the schedule touch nothing the invariant reads; the step of a
running core and a KeyDown keep it, and the other transitions change at most the timers. -/
theorem stepKeepsInvariant : Obligations.StepKeepsInvariant := by
  unfold Obligations.StepKeepsInvariant
  intro s t hinv h
  obtain ⟨p, hp, hcycle⟩ | ⟨rest, -, rfl⟩ | ⟨k, rest, -, rfl⟩ | ⟨k, rest, -, rfl⟩ := step_cases s t h
  · have hpinv : p.Inv := by
      rw [presented_eq s p hp]
      exact hinv.congr rfl rfl rfl rfl
    obtain ⟨-, rfl⟩ | ⟨hs, hrun⟩ := cycle_cases p t hcycle
    · exact hpinv
    · exact hpinv.runInstr hs hrun
  · exact hinv.congr rfl rfl rfl rfl
  · have hrest : (s.setSchedule rest).Inv := hinv.congr rfl rfl rfl rfl
    exact hrest.keyDown k
  · exact hinv.congr rfl rfl rfl rfl

/-- Settles O55: the reset state runs at 0x200 with an empty stack and no byte listed. -/
theorem resetMeetsInvariant : Obligations.ResetMeetsInvariant := by
  unfold Obligations.ResetMeetsInvariant
  exact inv_of_running rfl rfl (Nat.zero_le _) nofun (by decide)

/-! ## Construction -/

/-- Settles O60: `construct` accepts exactly the images and fonts that fit, and sets the fields it is given. -/
theorem constructAcceptsOrRefuses : Obligations.ConstructAcceptsOrRefuses := by
  unfold Obligations.ConstructAcceptsOrRefuses
  intro image font params schedule
  have hfits : imageFits image = true ↔ image.length ≤ 3584 := decide_eq_true_iff
  refine ⟨fun himage hfont => ?_, fun hlong => ?_⟩
  · have hs := (construct_eq_some_iff image font params schedule _).2
      ⟨hfits.2 himage, decide_eq_true_iff.2 hfont, rfl⟩
    exact ⟨_, hs, rfl, rfl, rfl, rfl, rfl⟩
  · refine Option.eq_none_iff_forall_ne_some.2 fun s hs => ?_
    obtain ⟨himage, -, -⟩ := (construct_eq_some_iff image font params schedule s).1 hs
    exact Nat.not_le.2 hlong (hfits.1 himage)

end Sys2Proof.Machine
end
